-- ==== Sys2Proof/Word.lean ====
section
/-! DEFINITION. The words of the MD5 core (spec/00_scope.md R7, R10, R11): bytes, 32-bit words, 64-bit command
words, and the record of four 32-bit words that the chaining state and the working variables both are. -/

namespace Sys2Proof

/-- `u8` (R10). -/
abbrev Byte := BitVec 8

/-- `u32` (R10), the word of the state and of a block (R7, `W`); its `+` is modulo 2^32 (R11). -/
abbrev Word := BitVec 32

/-- `u64` (R10): a command word (R8, `CMD_W`), the byte counter, a bit length. -/
abbrev Word64 := BitVec 64

/-- Four 32-bit words: the chaining state A, B, C, D = `H[0..3]` (R20), or the working variables a, b, c, d (R89). -/
structure Quad where
  a : Word
  b : Word
  c : Word
  d : Word
  deriving DecidableEq, Repr

end Sys2Proof
end

