-- ==== Sys2Proof/Config.lean ====
section
/-! DEFINITION. What an implementation fixes. The fixed parameters of R7 are in the types (32-bit words, four of them, a
buffer of 64 bytes, 16 block words, a 64-bit counter); `appendMax` is R8's. The open parameters of R9 are constants
with no body: no proof can see their values (notes/assumptions/5.md, 14.md). `N_INST` is the argument of the platform
of Machine/Platform.lean (notes/assumptions/12.md). -/

namespace Sys2Proof.Config

/-- `APPEND_MAX`, the largest number of bytes one APPEND carries (R8). -/
def appendMax : Nat := 4

/-- How far `LAT_CMD` lies above its least value, 1 (R9). -/
opaque latCmdAboveOne : Nat

/-- `LAT_CMD` (R9): cycles from acceptance of a command that compresses nothing until the core is ready again. -/
def latCmd : Nat := latCmdAboveOne + 1

/-- How far `LAT_BLOCK` lies above its least value, 1 (R9). -/
opaque latBlockAboveOne : Nat

/-- `LAT_BLOCK` (R9): extra cycles per compression. -/
def latBlock : Nat := latBlockAboveOne + 1

/-- How long beyond its lower bound the core stays busy with the `n`-th command it accepts: the spec gives lower bounds
and no upper bound (R165), so each command's value is free. -/
opaque extraBusy : Nat → Nat

/-- `LAT_RESET` (R9): cycles from the end of reset until the core is first ready. -/
opaque latReset : Nat

/-- The two choices of `RESET_STYLE` (R9): synchronous or asynchronous, and the polarity. -/
structure ResetStyle where
  asynchronous : Bool
  activeLow : Bool
  deriving DecidableEq, Repr, Inhabited

/-- `RESET_STYLE` (R9, R160): open, and read by no rule. -/
opaque resetStyle : ResetStyle

end Sys2Proof.Config
end

