-- ==== Sys2Proof/Syntax.lean ====
section
/-! DEFINITION. The commands of the core, one constructor per row of spec/opcode_table.json (spec/30_encoding.md R60, R61). -/

namespace Sys2Proof

/-- A command. `append` keeps its `CNT` and `DATA` fields as the word carries them: the lanes beyond `CNT` are ignored
by the effect (R62), but the whole word is what an error records (R141). -/
inductive Instr where
  | nop
  | init
  | append (cnt : BitVec 3) (data : BitVec 32)
  | finalize
  deriving DecidableEq, Repr

end Sys2Proof
end

