-- ==== Sys2Proof/WellFormed.lean ====
section
/-! DEFINITION. Which terms of `Instr` are commands (spec/30_encoding.md R62 to R64): an APPEND carries at most four bytes. -/

namespace Sys2Proof

/-- A well-formed command: `CNT` is at most 4 (R63). The other constructors have no field to check. -/
def Instr.wf : Instr → Bool
  | .nop => true
  | .init => true
  | .append cnt _ => cnt.toNat ≤ Config.appendMax
  | .finalize => true

end Sys2Proof
end

