-- ==== Sys2Proof/Decode.lean ====
section
/-! DEFINITION. The decoder, total on every 64-bit word and rejecting by name, and after it the encoder
(spec/30_encoding.md R60 to R64, R67; spec/opcode_table.json). -/

namespace Sys2Proof

/-- Why a word spells no command (R63, R64). -/
inductive IllegalWhy where
  /-- `OPC` is `0x4` to `0xf`. -/
  | reservedOpcode
  /-- NOP, INIT or FINALIZE with a bit of `[59:0]` set, or APPEND with a bit of `[59:35]` set. -/
  | reservedBitSet
  /-- APPEND with `CNT` 5 to 7. -/
  | countAboveFour
  deriving DecidableEq, Repr

/-- What the decoder answers. -/
inductive Decoded where
  | command (i : Instr)
  | illegal (why : IllegalWhy)
  deriving DecidableEq, Repr

/-- `OPC = w[63:60]` (R60). -/
def opcField (w : Word64) : BitVec 4 := w.extractLsb' 60 4

/-- `w[59:0]`: everything below the opcode. -/
def belowOpc (w : Word64) : BitVec 60 := w.extractLsb' 0 60

/-- `RSV = w[59:35]` (R60). -/
def rsvField (w : Word64) : BitVec 25 := w.extractLsb' 35 25

/-- `CNT = w[34:32]` (R60). -/
def cntField (w : Word64) : BitVec 3 := w.extractLsb' 32 3

/-- `DATA = w[31:0]` (R60). -/
def dataField (w : Word64) : BitVec 32 := w.extractLsb' 0 32

/-- A command without operands: `w[59:0]` must be 0 (R63). -/
def decodeBare (i : Instr) (w : Word64) : Decoded :=
  if belowOpc w = 0 then .command i else .illegal .reservedBitSet

/-- An APPEND: `w[59:35]` must be 0 and `CNT` at most 4 (R63). -/
def decodeAppend (w : Word64) : Decoded :=
  if rsvField w = 0 then
    if (cntField w).toNat ≤ Config.appendMax then .command (.append (cntField w) (dataField w))
    else .illegal .countAboveFour
  else .illegal .reservedBitSet

/-- The decoder (R61, R64). -/
def decode (w : Word64) : Decoded :=
  if opcField w = 0x0 then decodeBare .nop w
  else if opcField w = 0x1 then decodeBare .init w
  else if opcField w = 0x2 then decodeAppend w
  else if opcField w = 0x3 then decodeBare .finalize w
  else .illegal .reservedOpcode

/-- `legal(w)` (R64): the word spells one of the four commands. -/
def legal (w : Word64) : Bool :=
  match decode w with
  | .command _ => true
  | .illegal _ => false

/-- A command word from its four fields, `OPC` in the top bits (R60). -/
def commandWord (opc : BitVec 4) (rsv : BitVec 25) (cnt : BitVec 3) (data : BitVec 32) : Word64 :=
  opc ++ rsv ++ cnt ++ data

/-- The encoder (R60, R61, R67). -/
def encode : Instr → Word64
  | .nop => commandWord 0x0 0 0 0
  | .init => commandWord 0x1 0 0 0
  | .append cnt data => commandWord 0x2 0 cnt data
  | .finalize => commandWord 0x3 0 0 0

/-- The instruction of a word given as the opcode table numbers its bits: the core takes one 64-bit word per command,
bit 0 its least significant bit (R10, R60), so the `nbits` low bits of `w` are that word, the bits above them 0. -/
def decodeTableWord (nbits w : Nat) : Option Instr :=
  if w % 2 ^ nbits < 2 ^ 64 then
    match decode (BitVec.ofNat 64 (w % 2 ^ nbits)) with
    | .command i => some i
    | .illegal _ => none
  else none

end Sys2Proof
end

