-- ==== Sys2Proof/Machine/Bytes.lean ====
section
/-! DEFINITION. Byte order (spec/20_memory.md R41 to R45): little-endian assembly of block words, and little-endian
serialization of the state words and of the length field. -/

namespace Sys2Proof.Machine

/-- `le32` (R41): byte 0 in the low lane. -/
def le32 (b0 b1 b2 b3 : Byte) : Word :=
  b0.setWidth 32 ||| (b1.setWidth 32 <<< 8) ||| (b2.setWidth 32 <<< 16) ||| (b3.setWidth 32 <<< 24)

/-- `pack` (R41): word `j` of a block is made of its bytes `4j` to `4j+3`. -/
def pack (blk : Vector Byte 64) : Vector Word 16 :=
  Vector.ofFn fun j => le32 blk[4 * j.val] blk[4 * j.val + 1] blk[4 * j.val + 2] blk[4 * j.val + 3]

/-- `bytes_le32` (R42). -/
def bytesLe32 (w : Word) : List Byte :=
  [w.extractLsb' 0 8, w.extractLsb' 8 8, w.extractLsb' 16 8, w.extractLsb' 24 8]

/-- `serialize` (R42): the four state words in the order A, B, C, D, 16 bytes. -/
def serialize (h : Quad) : List Byte :=
  bytesLe32 h.a ++ bytesLe32 h.b ++ bytesLe32 h.c ++ bytesLe32 h.d

/-- `bytes_le64` (R43). -/
def bytesLe64 (v : Word64) : List Byte :=
  [v.extractLsb' 0 8, v.extractLsb' 8 8, v.extractLsb' 16 8, v.extractLsb' 24 8,
   v.extractLsb' 32 8, v.extractLsb' 40 8, v.extractLsb' 48 8, v.extractLsb' 56 8]

/-- Sixteen bytes on a 128-bit port: byte `i` is bits `[8i+7:8i]` (R31). -/
def portBytes (bytes : List Byte) : BitVec 128 :=
  bytes.foldr (fun b v => (v <<< 8) ||| b.setWidth 128) 0

end Sys2Proof.Machine
end

