-- ==== Sys2Proof/Machine/Compression.lean ====
section
/-! DEFINITION. The compression function (spec/40_compression.md R80 to R93) and the IV (spec/10_state.md R21). A pure function
of the chaining state and one block (R92); its schedule is fixed data (R93). -/

namespace Sys2Proof.Machine

/-- The initial value of the chaining state (R21). -/
def iv : Quad := ⟨0x67452301, 0xefcdab89, 0x98badcfe, 0x10325476⟩

/-- `rotl32(x, s)` (R80). For `s mod 32 = 0` the second shift is by 32 and gives 0, so the result is `x`. -/
def rotl32 (x : Word) (s : Nat) : Word := (x <<< (s % 32)) ||| (x >>> (32 - s % 32))

/-- Mixing function F (R81). -/
def mixF (x y z : Word) : Word := z ^^^ (x &&& (y ^^^ z))

/-- Mixing function G (R82): F with its arguments rotated. -/
def mixG (x y z : Word) : Word := mixF z x y

/-- Mixing function H (R83). -/
def mixH (x y z : Word) : Word := x ^^^ y ^^^ z

/-- Mixing function I (R84). -/
def mixI (x y z : Word) : Word := y ^^^ (x ||| ~~~z)

/-- The mixing-function selector of a step (R85). -/
inductive MixFn where
  | F
  | G
  | H
  | I
  deriving DecidableEq, Repr

/-- The mixing function a selector names (R81 to R84). -/
def mix : MixFn → Word → Word → Word → Word
  | .F => mixF
  | .G => mixG
  | .H => mixH
  | .I => mixI

/-- `fn(r)` (R85): F, G, H, I in rounds 0, 1, 2, 3. -/
def roundFn (r : Nat) : MixFn :=
  match r with
  | 0 => .F
  | 1 => .G
  | 2 => .H
  | _ => .I

/-- The message index in round `r` at index `i` (R86). -/
def msgIndex (r i : Nat) : Nat :=
  match r with
  | 0 => i
  | 1 => (1 + 5 * i) % 16
  | 2 => (5 + 3 * i) % 16
  | _ => (7 * i) % 16

/-- `S[r]` (R87). -/
def rotations (r : Nat) : List Nat :=
  match r with
  | 0 => [7, 12, 17, 22]
  | 1 => [5, 9, 14, 20]
  | 2 => [4, 11, 16, 23]
  | _ => [6, 10, 15, 21]

/-- The additive constants `T[0..15]` of R88's literal table. -/
def constRound0 : List Word :=
  [0xd76aa478, 0xe8c7b756, 0x242070db, 0xc1bdceee, 0xf57c0faf, 0x4787c62a, 0xa8304613, 0xfd469501,
   0x698098d8, 0x8b44f7af, 0xffff5bb1, 0x895cd7be, 0x6b901122, 0xfd987193, 0xa679438e, 0x49b40821]

/-- `T[16..31]` (R88). -/
def constRound1 : List Word :=
  [0xf61e2562, 0xc040b340, 0x265e5a51, 0xe9b6c7aa, 0xd62f105d, 0x02441453, 0xd8a1e681, 0xe7d3fbc8,
   0x21e1cde6, 0xc33707d6, 0xf4d50d87, 0x455a14ed, 0xa9e3e905, 0xfcefa3f8, 0x676f02d9, 0x8d2a4c8a]

/-- `T[32..47]` (R88). -/
def constRound2 : List Word :=
  [0xfffa3942, 0x8771f681, 0x6d9d6122, 0xfde5380c, 0xa4beea44, 0x4bdecfa9, 0xf6bb4b60, 0xbebfbc70,
   0x289b7ec6, 0xeaa127fa, 0xd4ef3085, 0x04881d05, 0xd9d4d039, 0xe6db99e5, 0x1fa27cf8, 0xc4ac5665]

/-- `T[48..63]` (R88). -/
def constRound3 : List Word :=
  [0xf4292244, 0x432aff97, 0xab9423a7, 0xfc93a039, 0x655b59c3, 0x8f0ccc92, 0xffeff47d, 0x85845dd1,
   0x6fa87e4f, 0xfe2ce6e0, 0xa3014314, 0x4e0811a1, 0xf7537e82, 0xbd3af235, 0x2ad7d2bb, 0xeb86d391]

/-- The additive constants `T[0..63]` (R88), literal data. -/
def addConsts : List Word := constRound0 ++ constRound1 ++ constRound2 ++ constRound3

/-- One row of the step schedule (R88): mixing function, message index, rotation amount, additive constant. -/
structure StepRow where
  fn : MixFn
  k : Fin 16
  s : Nat
  const : Word
  deriving DecidableEq, Repr

/-- Row `t` of the schedule: round `t div 16`, index `t mod 16` within it (R85 to R88). -/
def stepRow (t : Nat) : StepRow :=
  { fn := roundFn (t / 16)
    k := Fin.ofNat 16 (msgIndex (t / 16) (t % 16))
    s := (rotations (t / 16)).getD (t % 16 % 4) 0
    const := addConsts.getD t 0 }

/-- The 64 steps in increasing order (R85, R88). -/
def schedule : List StepRow := (List.range 64).map stepRow

/-- STEP (R89) with the role rotation `(a, b, c, d) <- (d, new, b, c)` (R90; spec/90_conflicts.md C2). -/
def mixStep (x : Vector Word 16) (v : Quad) (row : StepRow) : Quad :=
  let f := mix row.fn v.b v.c v.d
  let sum := v.a + f + x[row.k] + row.const
  let new := v.b + rotl32 sum row.s
  ⟨v.d, new, v.b, v.c⟩

/-- The working variables after all 64 steps (R91). -/
def mixBlock (h : Quad) (x : Vector Word 16) : Quad := schedule.foldl (mixStep x) h

/-- TRANSFORM (R91): the 64 steps and the feed-forward addition. -/
def transform (h : Quad) (x : Vector Word 16) : Quad :=
  let v := mixBlock h x
  ⟨h.a + v.a, h.b + v.b, h.c + v.c, h.d + v.d⟩

end Sys2Proof.Machine
end

