-- ==== Sys2Proof/Machine/State.lean ====
section
/-! DEFINITION. The state of one core instance (spec/10_state.md), the pins of its command port and its reset input
(spec/70_reset_and_hazards.md R160, R164), and the state after reset (R34). -/

namespace Sys2Proof.Machine

/-- `PHASE` (R26), a 1-bit register: 0 Accepting, 1 Finalized. -/
inductive Phase where
  | accepting
  | finalized
  deriving DecidableEq, Repr

/-- The cause codes of the 2-bit register `ERR` (R27, R140): 0, 1, 2, 3 in this order. -/
inductive ErrCode where
  | noError
  | appendAfterFinalize
  | finalizeAfterFinalize
  | illegalCommand
  deriving DecidableEq, Repr

/-- What the host does at the command port and at the reset input (R160, R164). -/
inductive HostEvent where
  /-- The host raises `cmd_valid` with this word on `cmd_word` and holds both until the core accepts it (R164). -/
  | present (w : Word64)
  /-- The host lowers `cmd_valid` before acceptance (R164). -/
  | withdraw
  /-- The reset input is asserted (R160). -/
  | assertReset
  /-- The reset input is released (R160). -/
  | releaseReset
  deriving DecidableEq, Repr

/-- One core instance. The first seven fields are the spec's record `CoreState`; the next three are the pins; `inputs` is
what the host will do next, oldest first. The core has no program counter, no flags and no host-addressable memory
(R28, R40); the working variables of R32 live only inside a command. -/
structure State where
  /-- `H[0..3]` (R20). -/
  h : Quad
  /-- `BUF[0..63]` (R22); the cells at `bufLen` and above hold stale bytes that no rule reads. -/
  buf : Vector Byte 64
  /-- `BUFLEN` (R23), 6 bits. -/
  bufLen : BitVec 6
  /-- `COUNT` (R24), 64 bits. -/
  count : Word64
  /-- `PHASE` (R26). -/
  phase : Phase
  /-- `ERR` (R27). -/
  err : ErrCode
  /-- `ERRCMD` (R27). -/
  errCmd : Word64
  /-- The `cmd_valid` pin (R164). -/
  cmdValid : Bool
  /-- The `cmd_word[63:0]` pins (R164). -/
  cmdWord : Word64
  /-- The reset input: `true` while asserted (R160). -/
  resetAsserted : Bool
  /-- The host's actions still to come, oldest first (notes/assumptions/3.md). -/
  inputs : List HostEvent
  deriving DecidableEq, Repr

/-- No step ends in a fault: `step` is total, every state and every 64-bit word give exactly one next state (R110), and
the errors of R140 are latched in `ERR` in a next state. So this type has no constructor. -/
inductive Fault where
  deriving DecidableEq, Repr

/-- Why the model gives no meaning. -/
inductive Refusal where
  /-- An instruction that has no meaning yet, raised by `exec`'s arms only; safe, since the run stops. No arm raises it. -/
  | notModelled (mnemonic : String)
  deriving DecidableEq, Repr

/-- The machine right after reset (R34, R160). R34 leaves `BUF` unspecified: its cells are 0 here (notes/assumptions/1.md).
The port pins are the host's: no word is presented (notes/assumptions/8.md). -/
def State.reset : State :=
  { h := iv
    buf := Vector.replicate 64 0
    bufLen := 0
    count := 0
    phase := .accepting
    err := .noError
    errCmd := 0
    cmdValid := false
    cmdWord := 0
    resetAsserted := false
    inputs := [] }

end Sys2Proof.Machine
end

