-- ==== Sys2Proof/Machine/Ops.lean ====
section
/-! DEFINITION. The named operations the commands share: ABSORB and the padding (spec/41_stream_driver.md R111, R114 to R116),
taking an error and the ways out of it (spec/60_exceptions.md R141, R142, R148), reset and the port
(spec/70_reset_and_hazards.md R160, R164). -/

namespace Sys2Proof.Machine

/-- ABSORB (R111): store one byte at `BUF[BUFLEN]`, and compress when it is the 64th. `COUNT` is not touched. -/
def absorb (s : State) (byte : Byte) : State :=
  let buf := s.buf.set s.bufLen.toNat byte s.bufLen.isLt
  if s.bufLen = 63 then
    { s with buf := buf, h := transform s.h (pack buf), bufLen := 0 }
  else
    { s with buf := buf, bufLen := s.bufLen + 1 }

/-- ABSORB of a byte string, in order (R115). -/
def absorbAll (s : State) (bytes : List Byte) : State := bytes.foldl absorb s

/-- One message byte of an APPEND (R114): count it, modulo 2^64, and absorb it. -/
def appendByte (s : State) (byte : Byte) : State := absorb { s with count := s.count + 1 } byte

/-- The loop of APPEND (R114). -/
def appendBytes (s : State) (bytes : List Byte) : State := bytes.foldl appendByte s

/-- `z`, the number of zero bytes of the padding (R116): `(55 - n) mod 64` for `n` 0 to 63, as `(55 + 64 - n) mod 64`. -/
def padZeros (n : Nat) : Nat := (119 - n) % 64

/-- `PAD(n, bitlen)` (R116). -/
def pad (n : Nat) (bitlen : Word64) : List Byte :=
  0x80 :: (List.replicate (padZeros n) 0 ++ bytesLe64 bitlen)

/-- The length field's value (R115): `COUNT × 8` modulo 2^64. -/
def bitLength (count : Word64) : Word64 := count * 8

/-- The effect of an executed FINALIZE (R115): absorb the padding, then enter Finalized. -/
def padAndFinalize (s : State) : State :=
  { absorbAll s (pad s.bufLen.toNat (bitLength s.count)) with phase := .finalized }

/-- `raise Error(code, w)` (R141): taking an error. The first error is latched with its word; nothing else changes. -/
def raiseError (code : ErrCode) (w : Word64) (s : State) : State :=
  if s.err = .noError then { s with err := code, errCmd := w } else s

/-- The checks of R110 and R146 that APPEND and FINALIZE share, after legality: discarded while `ERR ≠ 0`, misuse in
Finalized, else the command's effect. -/
def whenAccepting (misuse : ErrCode) (w : Word64) (effect : State → State) (s : State) : State :=
  if s.err ≠ .noError then s
  else
    match s.phase with
    | .finalized => raiseError misuse w s
    | .accepting => effect s

/-- The registers INIT loads (R113): a new message, and the only command that clears an error (R148). -/
def startMessage (s : State) : State :=
  { s with h := iv, bufLen := 0, count := 0, phase := .accepting, err := .noError, errCmd := 0 }

/-- Reset released (R160, R168): every register at its reset value, whatever it held; the host's pins and its later
actions are the host's and stay. -/
def resetRegisters (s : State) : State :=
  { State.reset with cmdValid := s.cmdValid, cmdWord := s.cmdWord, inputs := s.inputs }

/-- The word on the port is taken: the host lowers `cmd_valid` after acceptance (R164; notes/assumptions/3.md). -/
def takeWord (s : State) : State := { s with cmdValid := false }

/-- One action of the host at the port or the reset input (R160, R164). -/
def hostEvent (e : HostEvent) (s : State) : State :=
  match e with
  | .present w => { s with cmdValid := true, cmdWord := w }
  | .withdraw => { s with cmdValid := false }
  | .assertReset => { s with resetAsserted := true }
  | .releaseReset => if s.resetAsserted then resetRegisters s else s

/-- A step in which no command is accepted: the host's next action, if it has one; else the core idles and keeps all
its state (R155). -/
def waitForHost (s : State) : State :=
  match s.inputs with
  | [] => s
  | e :: rest => hostEvent e { s with inputs := rest }

end Sys2Proof.Machine
end

