-- ==== Sys2Proof/Machine/Control.lean ====
section
/-! DEFINITION. The commands without effect on the stream: NOP (R112) and INIT (R113) of spec/41_stream_driver.md. -/

namespace Sys2Proof.Machine

/-- NOP (R112): no effect, in either phase and with or without an error. -/
def execNop (s : State) : Host.Outcome State Fault Refusal := .next s

/-- INIT (R113): executes in every state. -/
def execInit (s : State) : Host.Outcome State Fault Refusal := .next (startMessage s)

end Sys2Proof.Machine
end

