-- ==== Sys2Proof/Machine/Operands.lean ====
section
/-! DEFINITION. The operands of APPEND, the only operand form (spec/30_encoding.md R62; spec/20_memory.md R44). -/

namespace Sys2Proof.Machine

/-- Byte lane `j` of the `DATA` field: `DATA[8j+7:8j]` (R62). -/
def lane (data : BitVec 32) (j : Nat) : Byte := data.extractLsb' (8 * j) 8

/-- The bytes an APPEND carries, lowest lane first; lanes `CNT` and above are ignored (R44, R62). -/
def laneBytes (cnt : BitVec 3) (data : BitVec 32) : List Byte :=
  (List.range cnt.toNat).map (lane data)

end Sys2Proof.Machine
end

