-- ==== Sys2Proof/Machine/Stream.lean ====
section
/-! DEFINITION. The stream commands: APPEND (R114) and FINALIZE (R115) of spec/41_stream_driver.md, with the order of checks
of R110 and spec/60_exceptions.md R146. -/

namespace Sys2Proof.Machine

/-- APPEND (R114). The decoder gives no APPEND with `CNT` above 4; such a term is the illegal word it encodes to (R114,
R144; notes/assumptions/9.md). The word an error records is the command's own (R141; notes/assumptions/10.md). -/
def execAppend (cnt : BitVec 3) (data : BitVec 32) (s : State) : Host.Outcome State Fault Refusal :=
  .next <|
    if (Instr.append cnt data).wf then
      whenAccepting .appendAfterFinalize (encode (.append cnt data)) (appendBytes · (laneBytes cnt data)) s
    else raiseError .illegalCommand (encode (.append cnt data)) s

/-- FINALIZE (R115). -/
def execFinalize (s : State) : Host.Outcome State Fault Refusal :=
  .next (whenAccepting .finalizeAfterFinalize (encode .finalize) padAndFinalize s)

end Sys2Proof.Machine
end

