-- ==== Sys2Proof/Machine/Dispatch.lean ====
section
/-! DEFINITION. One arm per command, each its own meaning (spec/41_stream_driver.md R110). -/

namespace Sys2Proof.Machine

def exec (i : Instr) (s : State) : Host.Outcome State Fault Refusal :=
  match i with
  | .nop => Sys2Proof.Machine.execNop s
  | .init => Sys2Proof.Machine.execInit s
  | .append cnt data => Sys2Proof.Machine.execAppend cnt data s
  | .finalize => Sys2Proof.Machine.execFinalize s

end Sys2Proof.Machine
end

