-- ==== Sys2Proof/Machine/Flags.lean ====
section
/-! DEFINITION. The outputs the host sees (spec/10_state.md R29 to R31; spec/70_reset_and_hazards.md R164, R166). They are
computed from the registers and reading them changes nothing (spec/20_memory.md R49). Where the spec leaves an output
undefined or unspecified, the observation is `none` (notes/assumptions/6.md). -/

namespace Sys2Proof.Machine

/-- The 1-bit encoding of `PHASE` (R26). -/
def phaseBit : Phase → BitVec 1
  | .accepting => 0
  | .finalized => 1

/-- The 2-bit encoding of `ERR` (R140). -/
def errBits : ErrCode → BitVec 2
  | .noError => 0
  | .appendAfterFinalize => 1
  | .finalizeAfterFinalize => 2
  | .illegalCommand => 3

/-- `DVALID` (R29): Finalized with no error. -/
def dvalid (s : State) : Bool := s.phase = .finalized ∧ s.err = .noError

/-- The `STATUS` bits (R29): reserved 7:4, `DVALID` 3, `ERR` 2:1, `PHASE` 0. -/
def statusBits (s : State) : BitVec 8 :=
  (0 : BitVec 4) ++ BitVec.ofBool (dvalid s) ++ errBits s.err ++ phaseBit s.phase

/-- `cmd_ready` between commands: the core is ready unless reset is asserted (R155, R160, R165). -/
def cmdReady (s : State) : Bool := !s.resetAsserted

/-- The `STATUS` output, defined only while ready (R29, R166). -/
def statusOut (s : State) : Option (BitVec 8) := if cmdReady s then some (statusBits s) else none

/-- The `ERRCMD_OUT` output, defined only while ready (R30, R166). -/
def errCmdOut (s : State) : Option Word64 := if cmdReady s then some s.errCmd else none

/-- The `DIGEST` output, defined only while ready with `DVALID = 1` (R31, R166). -/
def digestOut (s : State) : Option (BitVec 128) :=
  if cmdReady s ∧ dvalid s then some (portBytes (serialize s.h)) else none

end Sys2Proof.Machine
end

