-- ==== Sys2Proof/Machine/Execute.lean ====
section
/-! DEFINITION. One accepted command word (spec/41_stream_driver.md R110), and a sequence of them, which is what a run is
(spec/70_reset_and_hazards.md R170). -/

namespace Sys2Proof.Machine

/-- The spec's `step(s, w)` (R110): the word decoded and executed, an illegal word reported (R64, R141). -/
def acceptCommand (w : Word64) (s : State) : Host.Outcome State Fault Refusal :=
  match decode w with
  | .command i => exec i s
  | .illegal _ => .next (raiseError .illegalCommand w s)

/-- `s_i = step(s_(i-1), w_i)` (R170): the words in the order of acceptance, stopping at the first fault or refusal. -/
def runCommands : List Word64 → State → Host.Outcome State Fault Refusal
  | [], s => .next s
  | w :: ws, s =>
    match acceptCommand w s with
    | .next t => runCommands ws t
    | .fault r => .fault r
    | .refused r => .refused r

/-- A command is accepted where `cmd_valid = 1` and `cmd_ready = 1` (R164). -/
def accepts (s : State) : Bool := s.cmdValid && cmdReady s

end Sys2Proof.Machine
end

