-- ==== Sys2Proof/Machine/Step.lean ====
section
/-! DEFINITION. One step of the closed machine: the core and its host (spec/00_scope.md R16). -/

namespace Sys2Proof.Machine

/-- One step (R16, R164): the core accepts the word on its port and executes it whole, or, where there is none to accept,
the host's next action takes place. -/
def step (s : State) : Host.Outcome State Fault Refusal :=
  if accepts s then acceptCommand s.cmdWord (takeWord s) else .next (waitForHost s)

/-- The host presents the word `w` (its `nbits` low bits) on the command port of a core that is out of reset, so that the
next step accepts it (R164; notes/assumptions/4.md). -/
def State.withFetchWord (s : State) (nbits w : Nat) : State :=
  { s with cmdValid := true, cmdWord := BitVec.ofNat 64 (w % 2 ^ nbits), resetAsserted := false }

end Sys2Proof.Machine
end

