-- ==== Sys2Proof/Machine/Assembler.lean ====
section
/-! DEFINITION. The notation of the commands (spec/30_encoding.md R67 to R70): a line of assembly, the words it stands for, the
pseudo-instructions, and back from a word to a line. Text is a list of characters. Where R67 leaves the layout of the
text open, notes/assumptions/13.md says what is taken. -/

namespace Sys2Proof.Machine

/-- A line of assembly (R67, R69). -/
inductive AsmLine where
  | nop
  | init
  | append (bytes : List Byte)
  | finalize
  | word (w : Word64)
  | appends (bytes : List Byte)
  | digest (bytes : List Byte)
  deriving DecidableEq, Repr

/-- `APPEND {b0, ..., b(n-1)}` with at most four bytes: `CNT = n`, byte `j` in lane `j`, 0 in the unused lanes (R67). -/
def appendOf (bytes : List Byte) : Instr :=
  .append (BitVec.ofNat 3 bytes.length)
    (le32 (bytes.getD 0 0) (bytes.getD 1 0) (bytes.getD 2 0) (bytes.getD 3 0))

/-- The expansion of APPENDS (R69): four bytes a command, then one command with what is left, if anything. -/
def expandAppends : List Byte → List Instr
  | [] => []
  | [b0] => [appendOf [b0]]
  | [b0, b1] => [appendOf [b0, b1]]
  | [b0, b1, b2] => [appendOf [b0, b1, b2]]
  | b0 :: b1 :: b2 :: b3 :: rest => appendOf [b0, b1, b2, b3] :: expandAppends rest

/-- The bytes a command moves into the stream (R48): those an APPEND carries, and none for the other commands. -/
def carriedBy : Instr → List Byte
  | .nop => []
  | .init => []
  | .append cnt data => laneBytes cnt data
  | .finalize => []

/-- The expansion of DIGEST (R69), the source's one-shot. -/
def expandDigest (bytes : List Byte) : List Instr := .init :: (expandAppends bytes ++ [.finalize])

/-- The words of a line; none for an APPEND of more than four bytes, which R67 does not have. -/
def AsmLine.words : AsmLine → Option (List Word64)
  | .nop => some [encode .nop]
  | .init => some [encode .init]
  | .append bytes => if bytes.length ≤ Config.appendMax then some [encode (appendOf bytes)] else none
  | .finalize => some [encode .finalize]
  | .word w => some [w]
  | .appends bytes => some ((expandAppends bytes).map encode)
  | .digest bytes => some ((expandDigest bytes).map encode)

/-- The line a word prints as (R70): an APPEND shows the bytes it carries and no others, an illegal word is raw. -/
def disassemble (w : Word64) : AsmLine :=
  match decode w with
  | .command .nop => .nop
  | .command .init => .init
  | .command (.append cnt data) => .append (laneBytes cnt data)
  | .command .finalize => .finalize
  | .illegal _ => .word w

/-- `{`, `}`, the double quote and the apostrophe, which R67 and R69 write. -/
def openBrace : Char := Char.ofNat 0x7b
/-- See `openBrace`. -/
def closeBrace : Char := Char.ofNat 0x7d
/-- See `openBrace`. -/
def doubleQuote : Char := Char.ofNat 0x22
/-- See `openBrace`. -/
def apostrophe : Char := Char.ofNat 0x27

/-- A lower-case hexadecimal digit. -/
def hexDigit (v : Nat) : Char := Char.ofNat (if v < 10 then 48 + v else 87 + v)

/-- `0x` and the last `digits` hexadecimal digits of `v`. -/
def printHex (digits v : Nat) : List Char :=
  '0' :: 'x' :: (List.range digits).map fun j => hexDigit (v / 16 ^ (digits - 1 - j) % 16)

/-- Byte literals between braces, as R67 writes them. -/
def printBraces (bytes : List Byte) : List Char :=
  openBrace :: ((bytes.map fun b => printHex 2 b.toNat).intersperse [',', ' ']).flatten ++ [closeBrace]

/-- The text of a line (R67, R69, R70). -/
def AsmLine.print : AsmLine → List Char
  | .nop => ['N', 'O', 'P']
  | .init => ['I', 'N', 'I', 'T']
  | .append bytes => ['A', 'P', 'P', 'E', 'N', 'D', ' '] ++ printBraces bytes
  | .finalize => ['F', 'I', 'N', 'A', 'L', 'I', 'Z', 'E']
  | .word w => ['.', 'w', 'o', 'r', 'd', ' '] ++ printHex 16 w.toNat
  | .appends bytes => ['A', 'P', 'P', 'E', 'N', 'D', 'S', ' '] ++ printBraces bytes
  | .digest bytes => ['D', 'I', 'G', 'E', 'S', 'T', ' '] ++ printBraces bytes

/-- Blanks between the parts of a line. -/
def dropBlanks (cs : List Char) : List Char := cs.dropWhile fun c => c = ' ' ∨ c = Char.ofNat 9

/-- Nothing more on the line, or a comment from `;` on (R67). -/
def lineEnds (cs : List Char) : Bool :=
  match dropBlanks cs with
  | [] => true
  | c :: _ => c = ';'

/-- The rest of a text after a given beginning. -/
def afterWord : List Char → List Char → Option (List Char)
  | [], cs => some cs
  | _ :: _, [] => none
  | k :: ks, c :: cs => if k = c then afterWord ks cs else none

/-- The value of a hexadecimal digit. -/
def hexValue (c : Char) : Option Nat :=
  if c.isDigit then some (c.toNat - 48)
  else if 97 ≤ c.toNat ∧ c.toNat ≤ 102 then some (c.toNat - 87)
  else if 65 ≤ c.toNat ∧ c.toNat ≤ 70 then some (c.toNat - 55)
  else none

/-- Exactly so many hexadecimal digits. -/
def readHex : Nat → Nat → List Char → Option (Nat × List Char)
  | 0, v, cs => some (v, cs)
  | _ + 1, _, [] => none
  | n + 1, v, c :: cs => (hexValue c).bind fun d => readHex n (16 * v + d) cs

/-- Decimal digits, as many as there are. -/
def readDec : Nat → List Char → Nat × List Char
  | v, [] => (v, [])
  | v, c :: cs => if c.isDigit then readDec (10 * v + (c.toNat - 48)) cs else (v, c :: cs)

/-- The ASCII code of a character (R67, R69). -/
def asciiByte (c : Char) : Option Byte := if c.toNat < 128 then some (BitVec.ofNat 8 c.toNat) else none

/-- A byte literal (R67): `0x00` to `0xff`, decimal `0` to `255`, or a quoted character. R67 does not say whether a decimal
literal may have leading zeros: here it may, any number of them. Nor
does it except quoted characters from `;` or say whether the apostrophe may be quoted: here any ASCII character may stand
between the apostrophes, `;` and the apostrophe itself among them (notes/assumptions/13.md). -/
def readByte (cs : List Char) : Option (Byte × List Char) :=
  match cs with
  | '0' :: 'x' :: rest => (readHex 2 0 rest).map fun r => (BitVec.ofNat 8 r.1, r.2)
  | c :: rest =>
    if c = apostrophe then
      match rest with
      | x :: q :: more => if q = apostrophe then (asciiByte x).map fun b => (b, more) else none
      | _ => none
    else if c.isDigit ∧ (readDec 0 cs).1 < 256 then
      some (BitVec.ofNat 8 (readDec 0 cs).1, (readDec 0 cs).2)
    else none
  | [] => none

/-- What follows a byte in braces: a comma and the next byte, or the closing brace. -/
def readMoreBytes : Nat → List Char → Option (List Byte × List Char)
  | 0, _ => none
  | n + 1, cs =>
    match dropBlanks cs with
    | [] => none
    | c :: rest =>
      if c = closeBrace then some ([], rest)
      else if c = ',' then
        (readByte (dropBlanks rest)).bind fun b => (readMoreBytes n b.2).map fun r => (b.1 :: r.1, r.2)
      else none

/-- Byte literals in braces (R67). -/
def readBraces (cs : List Char) : Option (List Byte × List Char) :=
  (afterWord [openBrace] (dropBlanks cs)).bind fun rest =>
    match afterWord [closeBrace] (dropBlanks rest) with
    | some more => some ([], more)
    | none =>
      (readByte (dropBlanks rest)).bind fun b =>
        (readMoreBytes cs.length b.2).map fun r => (b.1 :: r.1, r.2)

/-- Characters up to the closing double quote, each its ASCII byte (R69), `;` among them (notes/assumptions/13.md). -/
def readQuoted : List Char → Option (List Byte × List Char)
  | [] => none
  | c :: cs =>
    if c = doubleQuote then some ([], cs)
    else (asciiByte c).bind fun b => (readQuoted cs).map fun r => (b :: r.1, r.2)

/-- The operand of APPENDS and DIGEST (R69): a string literal or bytes in braces. -/
def readText (cs : List Char) : Option (List Byte × List Char) :=
  match afterWord [doubleQuote] (dropBlanks cs) with
  | some rest => readQuoted rest
  | none => readBraces cs

/-- A line that must end after what was read. -/
def endingLine (line : AsmLine) (rest : List Char) : Option (List AsmLine) :=
  if lineEnds rest then some [line] else none

/-- One line of text (R67, R69); no line for a blank or a comment, none where the text is no command. -/
def parseLine (text : List Char) : Option (List AsmLine) :=
  let cs := dropBlanks text
  if lineEnds cs then some []
  else
    ((afterWord ['N', 'O', 'P'] cs).bind (endingLine .nop))
    <|> ((afterWord ['I', 'N', 'I', 'T'] cs).bind (endingLine .init))
    <|> ((afterWord ['F', 'I', 'N', 'A', 'L', 'I', 'Z', 'E'] cs).bind (endingLine .finalize))
    <|> (((afterWord ['.', 'w', 'o', 'r', 'd', ' '] cs).bind fun r => afterWord ['0', 'x'] (dropBlanks r)).bind fun r =>
          (readHex 16 0 r).bind fun v => endingLine (.word (BitVec.ofNat 64 v.1)) v.2)
    <|> ((afterWord ['A', 'P', 'P', 'E', 'N', 'D', 'S', ' '] cs).bind fun r =>
          (readText r).bind fun b => endingLine (.appends b.1) b.2)
    <|> ((afterWord ['D', 'I', 'G', 'E', 'S', 'T', ' '] cs).bind fun r =>
          (readText r).bind fun b => endingLine (.digest b.1) b.2)
    <|> ((afterWord ['A', 'P', 'P', 'E', 'N', 'D', ' '] cs).bind fun r =>
          (readBraces r).bind fun b => endingLine (.append b.1) b.2)

/-- A whole program: every line parsed and its words joined (R67). -/
def assemble : List (List Char) → Option (List Word64)
  | [] => some []
  | text :: rest =>
    (parseLine text).bind fun lines =>
      (lines.mapM AsmLine.words).bind fun ws => (assemble rest).map fun more => ws.flatten ++ more

end Sys2Proof.Machine
end

