-- ==== Sys2Proof/Machine/Timing.lean ====
section
/-! DEFINITION. What the spec says of time (spec/70_reset_and_hazards.md R162, R165, R169): lower bounds on the busy interval in
the open parameters of R9. A step is a whole command and no rule reads these (R16; notes/assumptions/5.md). -/

namespace Sys2Proof.Machine

/-- How many TRANSFORMs absorbing these bytes performs (R111). -/
def transformsIn : State → List Byte → Nat
  | _, [] => 0
  | s, b :: bs => (if s.bufLen = 63 then 1 else 0) + transformsIn (absorb s b) bs

/-- An APPEND or FINALIZE executes: no error and Accepting (R110). -/
def streaming (s : State) : Bool := s.err = .noError ∧ s.phase = .accepting

/-- The TRANSFORMs a command word performs in a state (R165). -/
def commandTransforms (w : Word64) (s : State) : Nat :=
  match decode w with
  | .command .nop => 0
  | .command .init => 0
  | .command (.append cnt data) => if streaming s then transformsIn s (laneBytes cnt data) else 0
  | .command .finalize => if streaming s then transformsIn s (pad s.bufLen.toNat (bitLength s.count)) else 0
  | .illegal _ => 0

/-- `NBLK` (R25): the blocks compressed by APPENDs since the last INIT, along a sequence of accepted words, `n` before it.
FINALIZE's padding blocks are not counted. -/
def appendBlocks : List Word64 → State → Nat → Nat
  | [], _, n => n
  | w :: ws, s, n =>
    match acceptCommand w s with
    | .next t =>
      match decode w with
      | .command .nop => appendBlocks ws t n
      | .command .init => appendBlocks ws t 0
      | .command (.append _ _) => appendBlocks ws t (n + commandTransforms w s)
      | .command .finalize => appendBlocks ws t n
      | .illegal _ => appendBlocks ws t n
    | .fault _ => n
    | .refused _ => n

/-- The least number of cycles the core is busy with a command it accepted (R165). -/
def busyAtLeast (w : Word64) (s : State) : Nat := Config.latCmd + commandTransforms w s * Config.latBlock

/-- The cycles from the release of reset until the core is ready (R162). -/
def cyclesToReadyAfterReset : Nat := Config.latReset

end Sys2Proof.Machine
end

