-- ==== Sys2Proof/Machine/Handshake.lean ====
section
/-! DEFINITION. The command port edge by edge (spec/70_reset_and_hazards.md R160, R162, R164 to R168): a second, finer view of
the same core. Each clock edge samples the reset input and the port; the busy interval is counted, with the open
latencies of R9 and a free excess over the lower bounds (notes/assumptions/5.md). The command-level machine of
Machine/Step.lean is what it refines (R170). -/

namespace Sys2Proof.Machine

/-- What one clock edge samples: the reset input and the host's side of the port (R160, R164). -/
structure Edge where
  reset : Bool
  cmdValid : Bool
  cmdWord : Word64
  deriving DecidableEq, Repr

/-- A core at its clock. `taken` is a history of the model's own, the words accepted since the last reset, and `accepted`
numbers the accepted commands, so that each has its own free busy time. -/
structure Clocked where
  core : State
  /-- Cycles until `cmd_ready` (R162, R165). -/
  busy : Nat
  /-- Reset was asserted at the last edge (R160). -/
  inReset : Bool
  accepted : Nat
  taken : List Word64
  deriving DecidableEq, Repr

/-- Right after reset: `LAT_RESET` cycles from ready (R162). -/
def Clocked.reset : Clocked :=
  { core := State.reset, busy := Config.latReset, inReset := false, accepted := 0, taken := [] }

/-- `cmd_ready` (R165): neither busy nor held in reset. -/
def Clocked.ready (c : Clocked) : Bool := c.busy = 0 ∧ c.inReset = false

/-- Reset asserted (R160, R168): a command in its busy interval is abandoned; the registers take their reset values
(notes/assumptions/7.md). The wait after reset is `LAT_RESET` cycles exactly, after every reset (notes/assumptions/5.md). -/
def holdReset (c : Clocked) : Clocked :=
  { c with core := resetRegisters c.core, busy := Config.latReset, inReset := true, taken := [] }

/-- A ready core accepts a word (R164) and is busy for at least the time R165 gives. -/
def acceptAtEdge (w : Word64) (c : Clocked) : Host.Outcome Clocked Fault Refusal :=
  match acceptCommand w c.core with
  | .next t => .next
      { core := t, busy := busyAtLeast w c.core + Config.extraBusy c.accepted, inReset := false,
        accepted := c.accepted + 1, taken := c.taken ++ [w] }
  | .fault r => .fault r
  | .refused r => .refused r

/-- One clock edge (R160, R162, R164, R165). A word presented while the core is not ready is not accepted (R167). -/
def clockEdge (e : Edge) (c : Clocked) : Host.Outcome Clocked Fault Refusal :=
  if e.reset then .next (holdReset c)
  else if c.inReset then .next { c with inReset := false }
  else if c.busy ≠ 0 then .next { c with busy := c.busy - 1 }
  else if e.cmdValid then acceptAtEdge e.cmdWord c
  else .next c

/-- A sequence of clock edges. -/
def runEdges : List Edge → Clocked → Host.Outcome Clocked Fault Refusal
  | [], c => .next c
  | e :: es, c =>
    match clockEdge e c with
    | .next d => runEdges es d
    | .fault r => .fault r
    | .refused r => .refused r

/-- `STATUS` at the clock, defined only while ready (R166). -/
def Clocked.statusOut (c : Clocked) : Option (BitVec 8) := if c.ready then some (statusBits c.core) else none

/-- `ERRCMD_OUT` at the clock, defined only while ready (R166). -/
def Clocked.errCmdOut (c : Clocked) : Option Word64 := if c.ready then some c.core.errCmd else none

/-- `DIGEST` at the clock, defined only while ready with `DVALID = 1` (R31, R166). -/
def Clocked.digestOut (c : Clocked) : Option (BitVec 128) :=
  if c.ready ∧ dvalid c.core then some (portBytes (serialize c.core.h)) else none

end Sys2Proof.Machine
end

