-- ==== Sys2Proof/Machine/Platform.lean ====
section
/-! DEFINITION. Several instances (spec/20_memory.md R51; spec/60_exceptions.md R153): the product of independent cores, one of
which steps at a time, in any order (notes/assumptions/12.md). -/

namespace Sys2Proof.Machine

/-- `n` instances, sharing nothing (R51); `n` is the open parameter `N_INST`, at least 1 (R9). -/
abbrev Platform (n : Nat) [NeZero n] := Vector State n

/-- Each instance starts in the reset state (R153). -/
def Platform.reset (n : Nat) [NeZero n] : Platform n := Vector.replicate n State.reset

/-- Instance `k` takes a step; the order in which instances step is the caller's (R51). -/
def Platform.stepAt {n : Nat} [NeZero n] (k : Fin n) (p : Platform n) : Host.Outcome (Platform n) Fault Refusal :=
  match step p[k] with
  | .next t => .next (p.set k t)
  | .fault r => .fault r
  | .refused r => .refused r

end Sys2Proof.Machine
end

