-- ==== Sys2Proof/Machine/ClosedForm.lean ====
section
/-! DEFINITION. The closed form of a digest (spec/41_stream_driver.md R120): what the commands of a message compute, said of the
message as a list of bytes, without the buffer, the counter or the phase. Claims compare the machine with it. -/

namespace Sys2Proof.Machine

/-- `pack` (R41) of the first 64 bytes of a list. -/
def packList (bytes : List Byte) : Vector Word 16 := pack (Vector.ofFn fun j : Fin 64 => bytes.getD j.val 0)

/-- `H_0, H_1, ...` of R120: TRANSFORM over the first `n` blocks of a byte string. -/
def compressBlocks : Nat → Quad → List Byte → Quad
  | 0, h, _ => h
  | n + 1, h, bytes => compressBlocks n (transform h (packList bytes)) (bytes.drop 64)

/-- `P` of R120: the message with its padding. -/
def paddedMessage (m : List Byte) : List Byte :=
  m ++ pad (m.length % 64) (BitVec.ofNat 64 (m.length * 8))

/-- The chaining state after a whole message (R120). -/
def md5State (m : List Byte) : Quad := compressBlocks ((paddedMessage m).length / 64) iv (paddedMessage m)

/-- `MD5(M)`, 16 bytes (R120). -/
def md5 (m : List Byte) : List Byte := serialize (md5State m)

/-- `BUF[0..BUFLEN-1]` (R22): the bytes not yet part of a compressed block, in arrival order. -/
def pendingBytes (s : State) : List Byte := s.buf.toList.take s.bufLen.toNat

end Sys2Proof.Machine
end

