-- ==== Sys2Proof/Safety.lean ====
section
/-! DEFINITION. What counts as a good state and a safe run, in the terms the claims use: the invariant of the registers, states
that agree on everything a rule reads, and runs without an error. -/

namespace Sys2Proof.Machine

/-- `ERRCMD` is a word that raises the latched cause (spec/10_state.md R27; spec/60_exceptions.md R140): 0 while there is
no error (R30), an APPEND for code 1, the FINALIZE word for code 2, an illegal word for code 3. -/
def errCmdExplains (s : State) : Prop :=
  match s.err with
  | .noError => s.errCmd = 0
  | .appendAfterFinalize => ∃ cnt data, decode s.errCmd = .command (.append cnt data)
  | .finalizeAfterFinalize => decode s.errCmd = .command .finalize
  | .illegalCommand => ∃ why, decode s.errCmd = .illegal why

/-- The invariant of the registers. -/
structure State.Inv (s : State) : Prop where
  /-- `BUFLEN = COUNT mod 64` in Accepting (R25). -/
  bufLen_accepting : s.phase = .accepting → s.bufLen.toNat = s.count.toNat % 64
  /-- FINALIZE leaves `BUFLEN = 0` (R117) and nothing absorbs in Finalized (R118). -/
  bufLen_finalized : s.phase = .finalized → s.bufLen = 0
  /-- Codes 1 and 2 are raised in Finalized only (R140). -/
  misuse_finalized : s.err = .appendAfterFinalize ∨ s.err = .finalizeAfterFinalize → s.phase = .finalized
  /-- The latched word raised the latched cause (R27, R30, R140). -/
  errCmd_explains : errCmdExplains s

/-- Two states agree on everything a rule reads: every field but the stale cells `BUF[j]`, `j >= BUFLEN` (R22). -/
structure State.AgreeRead (s t : State) : Prop where
  h : s.h = t.h
  bufLen : s.bufLen = t.bufLen
  pending : ∀ j : Fin 64, j.val < s.bufLen.toNat → s.buf[j] = t.buf[j]
  count : s.count = t.count
  phase : s.phase = t.phase
  err : s.err = t.err
  errCmd : s.errCmd = t.errCmd
  cmdValid : s.cmdValid = t.cmdValid
  cmdWord : s.cmdWord = t.cmdWord
  resetAsserted : s.resetAsserted = t.resetAsserted
  inputs : s.inputs = t.inputs

/-- The pins and the host's actions are the same in both states. -/
def State.SamePort (s t : State) : Prop :=
  s.cmdValid = t.cmdValid ∧ s.cmdWord = t.cmdWord ∧ s.resetAsserted = t.resetAsserted ∧ s.inputs = t.inputs

/-- A safe run: the words are all accepted and no error is latched at the end, so none was raised since the last INIT
(spec/60_exceptions.md R142, R148). -/
def SafeRun (ws : List Word64) (s t : State) : Prop := runCommands ws s = .next t ∧ t.err = .noError

/-- The words of the APPENDs that carry these chunks, in order (spec/41_stream_driver.md R119): each chunk is `CNT` and `DATA`. -/
def appendWords (chunks : List (BitVec 3 × BitVec 32)) : List Word64 :=
  chunks.map fun c => encode (.append c.1 c.2)

/-- `c1 ++ ... ++ cm` of R119: the bytes these APPENDs carry, joined. -/
def carriedBytes (chunks : List (BitVec 3 × BitVec 32)) : List Byte :=
  (chunks.map fun c => laneBytes c.1 c.2).flatten

end Sys2Proof.Machine
end

