-- ==== Sys2Proof/Certificates/Slice0/Obligations.lean ====
section
/-! DEFINITION. The statements for the provers, each formalising a rule of spec/ or derived from some (OBLIGATIONS.json). -/

open Sys2Proof Sys2Proof.Machine

/-! ### Encoding -/

/-- Words written out from the fields of R60 and R61 decode to the commands they stand for. -/
def Obligations.WrittenOutWordsDecode : Prop :=
  decode 0x0000000000000000 = .command .nop ∧
  decode 0x1000000000000000 = .command .init ∧
  decode 0x2000000000000000 = .command (.append 0 0) ∧
  decode 0x2000000300636261 = .command (.append 3 0x00636261) ∧
  decode 0x2000000163636261 = .command (.append 1 0x63636261) ∧
  decode 0x3000000000000000 = .command .finalize ∧
  decode 0x2000000500000000 = .illegal .countAboveFour ∧
  decode 0x2000000800000000 = .illegal .reservedBitSet ∧
  decode 0x1000000000000100 = .illegal .reservedBitSet ∧
  decode 0x4000000000000000 = .illegal .reservedOpcode

/-- R68: the worked encodings, which the spec marks as derived from R62 and R67. -/
def Obligations.WorkedEncodings : Prop :=
  (AsmLine.append [0x61, 0x62, 0x63]).words = some [0x2000000300636261] ∧
  (AsmLine.append [0x80]).words = some [0x2000000100000080] ∧
  (AsmLine.append []).words = some [0x2000000000000000] ∧
  (AsmLine.append [0x6d, 0x65, 0x73, 0x73]).words = some [0x200000047373656d]

/-- Decode and encode agree, on every well-formed command and every value of its operands (R60 to R64): no bit is
dropped. -/
def Obligations.DecodeOfEncodeIsTheCommand : Prop :=
  ∀ i : Instr, i.wf = true → decode (encode i) = .command i

/-- A word that decodes is well-formed and is the encoding of what it decodes to, so each command has one spelling. -/
def Obligations.EncodeOfDecodedIsTheWord : Prop :=
  ∀ (w : Word64) (i : Instr), decode w = .command i → i.wf = true ∧ encode i = w

/-- R64: which words are legal, said of the word as a number, and what an illegal word does, in any phase. -/
def Obligations.LegalityOfEveryWord : Prop :=
  (∀ w : Word64, legal w = true ↔
    ((w.toNat / 2 ^ 60 = 0 ∨ w.toNat / 2 ^ 60 = 1 ∨ w.toNat / 2 ^ 60 = 3) ∧ w.toNat % 2 ^ 60 = 0) ∨
    (w.toNat / 2 ^ 60 = 2 ∧ w.toNat / 2 ^ 35 % 2 ^ 25 = 0 ∧ w.toNat / 2 ^ 32 % 2 ^ 3 ≤ 4)) ∧
  (∀ (w : Word64) (s : State), legal w = false →
    acceptCommand w s = .next
      (if s.err = .noError then { s with err := .illegalCommand, errCmd := w } else s))

/-- The decoder and the rows of spec/opcode_table.json, by mask and match; APPEND's row with its constraint on `cnt`. -/
def Obligations.DecoderMatchesOpcodeTable : Prop :=
  ∀ w : Word64,
    (decode w = .command .nop ↔ w &&& 0xFFFFFFFFFFFFFFFF = 0x0000000000000000) ∧
    (decode w = .command .init ↔ w &&& 0xFFFFFFFFFFFFFFFF = 0x1000000000000000) ∧
    ((∃ cnt data, decode w = .command (.append cnt data)) ↔
      w &&& 0xFFFFFFF800000000 = 0x2000000000000000 ∧ (w >>> 32 &&& 7).toNat ≤ 4) ∧
    (decode w = .command .finalize ↔ w &&& 0xFFFFFFFFFFFFFFFF = 0x3000000000000000)

/-- The count of R66, which the spec marks as derived from R64: three words for NOP, INIT and FINALIZE, `5 × 2^32` for
APPEND, and no other legal word. -/
def Obligations.CountOfLegalWords : Prop :=
  Nat.card { w : Word64 // ∃ cnt data, decode w = .command (.append cnt data) } = 5 * 2 ^ 32 ∧
  Nat.card { w : Word64 // legal w = true } = 3 + 5 * 2 ^ 32

/-- Disassembly followed by assembly (R70, which the spec marks as derived from R62, R64 and R67): the word itself,
except that the ignored lanes of an APPEND come back as 0. -/
def Obligations.DisassemblyThenAssembly : Prop :=
  ∀ w : Word64,
    ((∀ cnt data, decode w ≠ .command (.append cnt data)) → (disassemble w).words = some [w]) ∧
    (∀ cnt data, decode w = .command (.append cnt data) →
      (disassemble w).words =
        some [encode (.append cnt (data &&& BitVec.ofNat 32 (2 ^ (8 * cnt.toNat) - 1)))])

/-- The expansion of APPENDS (R69): `n div 4` commands of four bytes and one of the `n mod 4` left if any are; command
`k` carries bytes `4k` on in its lanes, and its unused lanes are 0 (R67). All are well-formed and together carry the
bytes in order. -/
def Obligations.AppendsExpansion : Prop :=
  ∀ bytes : List Byte,
    (expandAppends bytes).length = bytes.length / 4 + (if bytes.length % 4 = 0 then 0 else 1) ∧
    (∀ k < (expandAppends bytes).length, ∃ cnt data,
      (expandAppends bytes)[k]? = some (.append cnt data) ∧
      cnt.toNat = (if k < bytes.length / 4 then 4 else bytes.length % 4) ∧
      (∀ j < cnt.toNat, bytes[4 * k + j]? = some (data.extractLsb' (8 * j) 8)) ∧
      (∀ j < 4, cnt.toNat ≤ j → data.extractLsb' (8 * j) 8 = 0)) ∧
    (∀ i ∈ expandAppends bytes, i.wf = true) ∧
    ((expandAppends bytes).map carriedBy).flatten = bytes

/-! ### Commands -/

/-- R112: NOP is the all-zero word only, a word with its opcode and any other bit set is illegal, and NOP has no effect
in any state. -/
def Obligations.NopHasNoEffect : Prop :=
  (∀ w : Word64, decode w = .command .nop ↔ w = 0x0000000000000000) ∧
  (∀ w : Word64, w.toNat / 2 ^ 60 = 0 → w ≠ 0 → legal w = false) ∧
  (∀ s : State, exec .nop s = .next s)

/-- R113: INIT is one word only, executes in every state, and loads the registers of a new message; `STATUS` is then 0,
nothing is compressed, and a second INIT changes nothing. That the cells of `BUF` stay is the model's reading
(notes/assumptions/2.md). -/
def Obligations.InitStartsANewMessage : Prop :=
  (∀ w : Word64, decode w = .command .init ↔ w = 0x1000000000000000) ∧
  (∀ s : State, ∃ t,
    exec .init s = .next t ∧
    t = { s with
      h := ⟨0x67452301, 0xefcdab89, 0x98badcfe, 0x10325476⟩, bufLen := 0, count := 0,
      phase := .accepting, err := .noError, errCmd := 0 } ∧
    statusBits t = 0x00 ∧ commandTransforms 0x1000000000000000 s = 0 ∧ exec .init t = .next t)

/-- An APPEND that executes (R114, R111, R62): its bytes join the pending ones, a full block is compressed inside the
command and the rest starts the next block; `COUNT` grows by `CNT` modulo 2^64; the phase and the error latch stay. -/
def Obligations.AppendJoinsItsBytes : Prop :=
  ∀ (s : State) (cnt : BitVec 3) (data : BitVec 32),
    cnt.toNat ≤ 4 → s.err = .noError → s.phase = .accepting →
    ∃ t, exec (.append cnt data) s = .next t ∧
      (let stream := pendingBytes s ++ laneBytes cnt data
       (stream.length < 64 → t.h = s.h ∧ pendingBytes t = stream) ∧
       (64 ≤ stream.length → t.h = transform s.h (packList stream) ∧ pendingBytes t = stream.drop 64)) ∧
      t.bufLen.toNat = (s.bufLen.toNat + cnt.toNat) % 64 ∧
      t.count.toNat = (s.count.toNat + cnt.toNat) % 2 ^ 64 ∧
      t.phase = .accepting ∧ t.err = .noError ∧ t.errCmd = s.errCmd ∧ s.SamePort t

/-- Where an APPEND that executes stores (R111, R114): byte `j` in cell `(BUFLEN + j) mod 64`, and no other cell
changes. What the stale cells hold, those of a block just compressed among them, is the model's reading of R111
(notes/assumptions/2.md). -/
def Obligations.AppendStoresInTheBuffer : Prop :=
  ∀ (s : State) (cnt : BitVec 3) (data : BitVec 32),
    cnt.toNat ≤ 4 → s.err = .noError → s.phase = .accepting →
    ∃ t, exec (.append cnt data) s = .next t ∧
      (∀ (c : Fin 64) (j : Nat), j < cnt.toNat → c.val = (s.bufLen.toNat + j) % 64 →
        t.buf[c] = data.extractLsb' (8 * j) 8) ∧
      (∀ c : Fin 64, (∀ j < cnt.toNat, c.val ≠ (s.bufLen.toNat + j) % 64) → t.buf[c] = s.buf[c])

/-- The lane order of R44: an APPEND of four bytes at a 4-aligned offset fills exactly one block word with `DATA`. The
words above the fill, and all words once the block is complete, are stale cells; that they are kept is the model's
reading (notes/assumptions/2.md). -/
def Obligations.AlignedAppendFillsOneWord : Prop :=
  ∀ (s : State) (data : BitVec 32),
    s.bufLen.toNat % 4 = 0 → s.err = .noError → s.phase = .accepting →
    ∃ t, exec (.append 4 data) s = .next t ∧
      (∀ j : Fin 16, j.val = s.bufLen.toNat / 4 → (pack t.buf)[j] = data) ∧
      (∀ j : Fin 16, j.val ≠ s.bufLen.toNat / 4 → (pack t.buf)[j] = (pack s.buf)[j])

/-- Lanes `j >= CNT` are ignored (R62): two APPENDs that carry the same bytes have the same effect where the command
executes or is discarded. (A misuse records the whole word, ignored lanes and all, R141.) -/
def Obligations.IgnoredLanesHaveNoEffect : Prop :=
  ∀ (s : State) (cnt : BitVec 3) (data data' : BitVec 32),
    cnt.toNat ≤ 4 → s.err ≠ .noError ∨ s.phase = .accepting →
    (∀ j < cnt.toNat, data.extractLsb' (8 * j) 8 = data'.extractLsb' (8 * j) 8) →
    ∃ t, exec (.append cnt data) s = .next t ∧ exec (.append cnt data') s = .next t

/-- A FINALIZE that executes (R115, R116, R117): the pending bytes with `80`, zeros and the bit length fill one block
when `BUFLEN <= 55` and two from 56 on; they are compressed, `BUFLEN` is 0, `COUNT` stays, and the digest is on
`DIGEST`. -/
def Obligations.FinalizeCompressesThePadding : Prop :=
  ∀ s : State, s.err = .noError → s.phase = .accepting →
    ∃ t, exec .finalize s = .next t ∧
      (let n := s.bufLen.toNat
       let bitlen := BitVec.ofNat 64 (s.count.toNat * 8)
       let padded := pendingBytes s ++ (0x80 :: (List.replicate ((119 - n) % 64) 0 ++ bytesLe64 bitlen))
       (n ≤ 55 → padded.length = 64 ∧ t.h = transform s.h (packList padded)) ∧
       (56 ≤ n → padded.length = 128 ∧
         t.h = transform (transform s.h (packList padded)) (packList (padded.drop 64)))) ∧
      t.bufLen = 0 ∧ t.count = s.count ∧ t.phase = .finalized ∧ t.err = .noError ∧ t.errCmd = s.errCmd ∧
      s.SamePort t ∧ statusBits t = 0x09 ∧
      (s.resetAsserted = false → digestOut t = some (portBytes (serialize t.h)))

/-- The wrap of the bit length (R115): only `COUNT mod 2^61` contributes to the digest. -/
def Obligations.LengthFieldWraps : Prop :=
  ∀ (s s' : State), s.err = .noError → s.phase = .accepting →
    s' = { s with count := s'.count } → s.count.toNat % 2 ^ 61 = s'.count.toNat % 2 ^ 61 →
    ∃ t t', exec .finalize s = .next t ∧ exec .finalize s' = .next t' ∧ t.h = t'.h

/-- Misuse (R140, R141, R144): APPEND and FINALIZE in Finalized, with no error before, latch codes 1 and 2 and the
command's own word, and change nothing else; `STATUS` is then `0x03` and `0x05`. -/
def Obligations.MisuseAfterFinalize : Prop :=
  ∀ s : State, s.err = .noError → s.phase = .finalized →
    (∀ (cnt : BitVec 3) (data : BitVec 32), cnt.toNat ≤ 4 →
      ∃ t, exec (.append cnt data) s = .next t ∧
        t = { s with err := .appendAfterFinalize, errCmd := encode (.append cnt data) } ∧ statusBits t = 0x03) ∧
    (∃ t, exec .finalize s = .next t ∧
      t = { s with err := .finalizeAfterFinalize, errCmd := 0x3000000000000000 } ∧ statusBits t = 0x05)

/-- An APPEND term with `CNT` above 4, which no legal word decodes to, reports itself as the illegal word it encodes to
(R114, R144; the reading is the model's, notes/assumptions/9.md). -/
def Obligations.OversizedAppendIsIllegal : Prop :=
  ∀ (s : State) (cnt : BitVec 3) (data : BitVec 32), 4 < cnt.toNat →
    exec (.append cnt data) s = .next
      (if s.err = .noError then { s with err := .illegalCommand, errCmd := encode (.append cnt data) } else s)

/-- R142: while `ERR ≠ 0` every word but INIT changes nothing and `DVALID` stays 0, for one word and for a whole
sequence of words. INIT still executes, loads what R113 and R21 say and so clears the error; that it keeps the cells of
`BUF` is the model's reading (notes/assumptions/2.md). -/
def Obligations.ErrorPoisonsUntilInit : Prop :=
  ∀ s : State, s.err ≠ .noError →
    (∀ w : Word64, decode w ≠ .command .init → acceptCommand w s = .next s) ∧
    (∀ ws : List Word64, (∀ w ∈ ws, decode w ≠ .command .init) → runCommands ws s = .next s ∧ dvalid s = false) ∧
    (acceptCommand 0x1000000000000000 s = .next { s with
      h := ⟨0x67452301, 0xefcdab89, 0x98badcfe, 0x10325476⟩, bufLen := 0, count := 0,
      phase := .accepting, err := .noError, errCmd := 0 })

/-- What each command leaves alone (R33, R141, R143), whatever the state: the port always; NOP everything; INIT the
cells of `BUF`; APPEND the phase, and every stream register unless it executes; FINALIZE `COUNT`, and every stream
register unless it executes, and then the cells below `BUFLEN` where one block suffices (R111). The error latch stays
unless an error is raised. That INIT keeps `BUF`, and what FINALIZE's other cells hold, is the model's reading
(notes/assumptions/2.md); so is it that an APPEND term with `CNT` above 4 acts as an illegal word
(notes/assumptions/9.md). -/
def Obligations.CommandFrames : Prop :=
  ∀ (i : Instr) (s t : State), exec i s = .next t →
    s.SamePort t ∧
    (i = .nop → t = s) ∧
    (i = .init → t.buf = s.buf) ∧
    (∀ cnt data, i = .append cnt data →
      t.phase = s.phase ∧
      (s.err ≠ .noError ∨ s.phase = .finalized ∨ 4 < cnt.toNat →
        t.h = s.h ∧ t.buf = s.buf ∧ t.bufLen = s.bufLen ∧ t.count = s.count) ∧
      (s.err ≠ .noError ∨ (s.phase = .accepting ∧ cnt.toNat ≤ 4) → t.err = s.err ∧ t.errCmd = s.errCmd)) ∧
    (i = .finalize →
      t.count = s.count ∧
      (s.err ≠ .noError ∨ s.phase = .finalized →
        t.h = s.h ∧ t.buf = s.buf ∧ t.bufLen = s.bufLen ∧ t.phase = s.phase) ∧
      (s.err ≠ .noError ∨ s.phase = .accepting → t.err = s.err ∧ t.errCmd = s.errCmd) ∧
      (s.bufLen.toNat ≤ 55 → ∀ c : Fin 64, c.val < s.bufLen.toNat → t.buf[c] = s.buf[c]))

/-! ### The step -/

/-- R110: what an accepted word does, case by case; every state and every word give exactly one next state. -/
def Obligations.AcceptedWordDispatch : Prop :=
  ∀ (w : Word64) (s : State), ∃ t, acceptCommand w s = .next t ∧
    (legal w = false → t = if s.err = .noError then { s with err := .illegalCommand, errCmd := w } else s) ∧
    (decode w = .command .nop → t = s) ∧
    (decode w = .command .init → t = startMessage s) ∧
    (∀ cnt data, decode w = .command (.append cnt data) →
      (s.err ≠ .noError → t = s) ∧
      (s.err = .noError → s.phase = .finalized → t = { s with err := .appendAfterFinalize, errCmd := w }) ∧
      (s.err = .noError → s.phase = .accepting → t = appendBytes s (laneBytes cnt data))) ∧
    (decode w = .command .finalize →
      (s.err ≠ .noError → t = s) ∧
      (s.err = .noError → s.phase = .finalized → t = { s with err := .finalizeAfterFinalize, errCmd := w }) ∧
      (s.err = .noError → s.phase = .accepting → t = padAndFinalize s))

/-- A step runs the decoded command: where a word is on the port and the core is ready, the step is `exec` of what the
word decodes to, after the word is taken from the port (R164; that `cmd_valid` falls is the model's reading,
notes/assumptions/3.md). -/
def Obligations.StepRunsTheDecodedCommand : Prop :=
  ∀ (s : State) (i : Instr), s.cmdValid = true → s.resetAsserted = false → decode s.cmdWord = .command i →
    step s = exec i { s with cmdValid := false }

/-- A step on a word that spells no command reports it (R64, R141, R147), and otherwise only takes it from the port.
That `cmd_valid` falls at acceptance is the model's choice (notes/assumptions/3.md). -/
def Obligations.StepReportsAnIllegalWord : Prop :=
  ∀ (s : State) (why : IllegalWhy), s.cmdValid = true → s.resetAsserted = false → decode s.cmdWord = .illegal why →
    (s.err = .noError →
      step s = .next { s with cmdValid := false, err := .illegalCommand, errCmd := s.cmdWord }) ∧
    (s.err ≠ .noError → step s = .next { s with cmdValid := false })

/-- Every step answers a next state: the core never faults and the model refuses nothing (R110). -/
def Obligations.StepIsTotal : Prop := ∀ s : State, ∃ t, step s = .next t

/-- Every state change is caused by an accepted command or by reset (R49, R155, R160): a step that accepts none leaves
every register, unless it is the release of reset, which loads the reset values. That the registers are kept at the
assertion of reset and while it lasts is the model's choice (notes/assumptions/7.md). -/
def Obligations.OnlyCommandsAndResetChangeRegisters : Prop :=
  ∀ s : State, s.cmdValid = false ∨ s.resetAsserted = true →
    ∃ t, step s = .next t ∧
      ((s.inputs.head? ≠ some .releaseReset ∨ s.resetAsserted = false) →
        t = { s with cmdValid := t.cmdValid, cmdWord := t.cmdWord, resetAsserted := t.resetAsserted, inputs := t.inputs }) ∧
      (s.inputs.head? = some .releaseReset → s.resetAsserted = true →
        t.h = ⟨0x67452301, 0xefcdab89, 0x98badcfe, 0x10325476⟩ ∧ t.bufLen = 0 ∧ t.count = 0 ∧
        t.phase = .accepting ∧ t.err = .noError ∧ t.errCmd = 0 ∧ t.resetAsserted = false)

/-- While reset is asserted the core accepts no command, whatever is on its port, and its outputs are undefined (R160).
That the host's next action takes place instead, and that only the release of reset writes a register, are the model's
choices (notes/assumptions/3.md, notes/assumptions/7.md). -/
def Obligations.NothingAcceptedInReset : Prop :=
  ∀ s : State, s.resetAsserted = true →
    step s = .next (waitForHost s) ∧ statusOut s = none ∧ errCmdOut s = none ∧ digestOut s = none

/-- A word withdrawn while reset keeps the core from accepting it has no effect (R164): the registers stay and the port
is empty. (A ready core accepts at once, and `BusyCoreAcceptsNothing` is the busy case.) That the registers are kept in
reset, and that the host's actions are a list, are the model's choices (notes/assumptions/7.md, notes/assumptions/3.md). -/
def Obligations.WithdrawnWordHasNoEffect : Prop :=
  ∀ (s : State) (rest : List HostEvent), s.resetAsserted = true → s.cmdValid = true → s.inputs = .withdraw :: rest →
    step s = .next { s with cmdValid := false, inputs := rest }

/-- A run from an idle core is the sequence of the accepted words (R170, R52): the host presents them one after another,
and two steps a word later the registers are those of `s_i = step(s_(i-1), w_i)`. The list of the host's actions, and
that `cmd_valid` falls at acceptance, which make it two steps a word, are the model's choices (notes/assumptions/3.md). -/
def Obligations.RunIsTheSequenceOfWords : Prop :=
  ∀ (ws : List Word64) (s : State),
    s.cmdValid = false → s.resetAsserted = false → s.inputs = ws.map .present →
    ∃ t u, runCommands ws s = .next t ∧ Host.Core.run core (2 * ws.length) s = .next u ∧
      u = { t with cmdWord := u.cmdWord, inputs := [] }

/-! ### Who writes what -/

/-- R26: `PHASE` is encoded 0 and 1; INIT and reset set Accepting, an executed FINALIZE sets Finalized, nothing else
writes it. That reset writes the phase at its release and not at its assertion is the model's choice
(notes/assumptions/7.md). -/
def Obligations.PhaseWriters : Prop :=
  phaseBit .accepting = 0 ∧ phaseBit .finalized = 1 ∧ State.reset.phase = .accepting ∧
  ∀ s t : State, step s = .next t →
    (accepts s = true → s.cmdWord = 0x1000000000000000 → t.phase = .accepting) ∧
    (accepts s = false → s.inputs.head? = some .releaseReset → s.resetAsserted = true → t.phase = .accepting) ∧
    (accepts s = true → s.cmdWord = 0x3000000000000000 → s.err = .noError → s.phase = .accepting → t.phase = .finalized) ∧
    (t.phase ≠ s.phase →
      (accepts s = true ∧ s.cmdWord = 0x1000000000000000) ∨
      (accepts s = false ∧ s.inputs.head? = some .releaseReset ∧ s.resetAsserted = true) ∨
      (accepts s = true ∧ s.cmdWord = 0x3000000000000000 ∧ s.err = .noError ∧ s.phase = .accepting))

/-- The error latch (R27, R141, R146, R148): it changes only where it was empty, to the word just accepted and a cause,
or is cleared by INIT or reset. That reset writes the latch at its release and not at its assertion is the model's
choice (notes/assumptions/7.md). -/
def Obligations.ErrorLatchWriters : Prop :=
  ∀ s t : State, step s = .next t → ¬(t.err = s.err ∧ t.errCmd = s.errCmd) →
    (s.err = .noError ∧ t.err ≠ .noError ∧ accepts s = true ∧ t.errCmd = s.cmdWord) ∨
    (t.err = .noError ∧ t.errCmd = 0 ∧
      ((accepts s = true ∧ s.cmdWord = 0x1000000000000000) ∨
       (accepts s = false ∧ s.inputs.head? = some .releaseReset ∧ s.resetAsserted = true)))

/-- `COUNT` (R24): an executed APPEND adds its `CNT` modulo 2^64, INIT and reset clear it, and nothing else writes it,
the padding of FINALIZE included. That reset writes `COUNT` at its release and not at its assertion is the model's
choice (notes/assumptions/7.md). -/
def Obligations.CountWriters : Prop :=
  ∀ s t : State, step s = .next t →
    (accepts s = true → ∀ cnt data, decode s.cmdWord = .command (.append cnt data) → s.err = .noError →
      s.phase = .accepting → t.count.toNat = (s.count.toNat + cnt.toNat) % 2 ^ 64) ∧
    (accepts s = true → s.cmdWord = 0x1000000000000000 → t.count = 0) ∧
    (accepts s = false → s.inputs.head? = some .releaseReset → s.resetAsserted = true → t.count = 0) ∧
    (t.count ≠ s.count →
      (accepts s = true ∧ s.err = .noError ∧ s.phase = .accepting ∧
        ∃ cnt data, decode s.cmdWord = .command (.append cnt data) ∧ cnt ≠ 0) ∨
      (accepts s = true ∧ s.cmdWord = 0x1000000000000000) ∨
      (accepts s = false ∧ s.inputs.head? = some .releaseReset ∧ s.resetAsserted = true))

/-- The chaining state (R20, R91, R111, R115): a step that changes `H` loads the IV at INIT or reset, or runs TRANSFORM
inside an executing APPEND or FINALIZE, which rewrites the four words together: once on the block that the pending bytes
and the APPEND's make up, or once or twice on the pending bytes with their padding. That reset writes `H` at its release
and not at its assertion is the model's choice (notes/assumptions/7.md). -/
def Obligations.ChainingStateWriters : Prop :=
  ∀ s t : State, step s = .next t → t.h ≠ s.h →
    (t.h = ⟨0x67452301, 0xefcdab89, 0x98badcfe, 0x10325476⟩ ∧
      ((accepts s = true ∧ s.cmdWord = 0x1000000000000000) ∨
       (accepts s = false ∧ s.inputs.head? = some .releaseReset ∧ s.resetAsserted = true))) ∨
    (accepts s = true ∧ s.err = .noError ∧ s.phase = .accepting ∧
      ((∃ cnt data, decode s.cmdWord = .command (.append cnt data) ∧ 64 ≤ s.bufLen.toNat + cnt.toNat ∧
         t.h = transform s.h (packList (pendingBytes s ++ laneBytes cnt data))) ∨
       (s.cmdWord = 0x3000000000000000 ∧
         (let padded := pendingBytes s ++
            (0x80 :: (List.replicate ((119 - s.bufLen.toNat) % 64) 0 ++ bytesLe64 (BitVec.ofNat 64 (s.count.toNat * 8))))
          (s.bufLen.toNat ≤ 55 ∧ t.h = transform s.h (packList padded)) ∨
          (56 ≤ s.bufLen.toNat ∧
            t.h = transform (transform s.h (packList padded)) (packList (padded.drop 64)))))))

/-! ### Invariants -/

/-- The invariant of the registers holds right after reset. -/
def Obligations.RegisterInvariantAtReset : Prop := State.reset.Inv

/-- Every step keeps the invariant of the registers (R25, R27, R30, R117, R140), from every state that has it. -/
def Obligations.StepKeepsRegisterInvariant : Prop :=
  ∀ s t : State, s.Inv → step s = .next t → t.Inv

/-- `STATUS` takes six values only (spec/95_test_vectors.md, the rows that cannot occur). -/
def Obligations.StatusNeverImpossible : Prop :=
  ∀ s : State, s.Inv → statusBits s ∈ [0x00, 0x09, 0x03, 0x05, 0x06, (0x07 : BitVec 8)]

/-- R30: after any words from reset, `ERRCMD_OUT` is the register, and 0 while there is no error. -/
def Obligations.ErrCmdOutput : Prop :=
  ∀ (ws : List Word64) (t : State), runCommands ws State.reset = .next t →
    errCmdOut t = some t.errCmd ∧ (t.err = .noError → errCmdOut t = some 0)

/-- R25, which the spec marks as derived: in Accepting, after any words from reset, `COUNT ≡ BUFLEN + 64 × NBLK (mod
2^64)`, where `NBLK` counts the blocks compressed by APPENDs since the last INIT; so `BUFLEN = COUNT mod 64`. -/
def Obligations.CounterInvariant : Prop :=
  ∀ (ws : List Word64) (t : State), runCommands ws State.reset = .next t → t.phase = .accepting →
    t.count.toNat = (t.bufLen.toNat + 64 * appendBlocks ws State.reset 0) % 2 ^ 64 ∧
    t.bufLen.toNat = t.count.toNat % 64

/-- R118: from a Finalized state without error until the next INIT, `H` does not change, and `DIGEST` carries it
whenever `ERR = 0`. -/
def Obligations.DigestStaysUntilInit : Prop :=
  ∀ (s : State) (ws : List Word64), s.phase = .finalized → s.err = .noError → s.resetAsserted = false →
    (∀ w ∈ ws, decode w ≠ .command .init) →
    ∃ t, runCommands ws s = .next t ∧ t.h = s.h ∧ t.phase = .finalized ∧
      (t.err = .noError → dvalid t = true ∧ digestOut t = some (portBytes (serialize s.h))) ∧
      (t.err ≠ .noError → dvalid t = false ∧ digestOut t = none)

/-- R22: no rule reads a stale cell of `BUF`. Two states that differ in stale cells only step to states that differ in
stale cells only, and show the host the same outputs. -/
def Obligations.StaleCellsAreNeverRead : Prop :=
  ∀ s s' : State, s.AgreeRead s' →
    statusOut s = statusOut s' ∧ errCmdOut s = errCmdOut s' ∧ digestOut s = digestOut s' ∧
    ∃ t t', step s = .next t ∧ step s' = .next t' ∧ t.AgreeRead t'

/-! ### Whole messages -/

/-- R119, which the spec marks as derived from R111 and R114: after INIT, APPENDs and FINALIZE the state, and so `H` and
`DIGEST`, depends on the joined bytes only, not on how they were split over APPENDs. -/
def Obligations.StreamingEquivalence : Prop :=
  ∀ (s : State) (chunks chunks' : List (BitVec 3 × BitVec 32)),
    (∀ c ∈ chunks, c.1.toNat ≤ 4) → (∀ c ∈ chunks', c.1.toNat ≤ 4) → carriedBytes chunks = carriedBytes chunks' →
    ∃ t, runCommands (encode .init :: (appendWords chunks ++ [encode .finalize])) s = .next t ∧
      runCommands (encode .init :: (appendWords chunks' ++ [encode .finalize])) s = .next t ∧ t.err = .noError

/-- R120, which the spec marks as derived from R111 and R113 to R118: the closed form. From any state out of reset,
INIT, APPENDs that carry a message, and FINALIZE leave the chaining state that the padded message gives block by block,
and its 16 bytes on `DIGEST`. No bound on the message's length is needed: the counter and the bit length both wrap (R24,
R115). -/
def Obligations.DigestIsTheClosedForm : Prop :=
  ∀ (s : State) (chunks : List (BitVec 3 × BitVec 32)), s.resetAsserted = false → (∀ c ∈ chunks, c.1.toNat ≤ 4) →
    (paddedMessage (carriedBytes chunks)).length % 64 = 0 ∧
    ∃ t, runCommands (encode .init :: (appendWords chunks ++ [encode .finalize])) s = .next t ∧
      t.h = md5State (carriedBytes chunks) ∧ dvalid t = true ∧
      digestOut t = some (portBytes (md5 (carriedBytes chunks)))

/-- The one-shot DIGEST (R69): its expansion, run from any state out of reset, puts the MD5 of its bytes on `DIGEST`. -/
def Obligations.DigestPseudoInstruction : Prop :=
  ∀ (s : State) (m : List Byte), s.resetAsserted = false →
    ∃ t, runCommands ((expandDigest m).map encode) s = .next t ∧ dvalid t = true ∧
      digestOut t = some (portBytes (md5 m))

/-! ### Reset and outputs -/

/-- What reset leaves (R34), but for the cells of `BUF`, which R34 leaves unspecified. -/
def Obligations.ResetValues : Prop :=
  State.reset.h = ⟨0x67452301, 0xefcdab89, 0x98badcfe, 0x10325476⟩ ∧ State.reset.bufLen = 0 ∧
  State.reset.count = 0 ∧ State.reset.phase = .accepting ∧ State.reset.err = .noError ∧ State.reset.errCmd = 0 ∧
  statusOut State.reset = some 0x00 ∧ dvalid State.reset = false ∧ digestOut State.reset = none

/-- R161, which the spec marks as derived from R160 and R113: for every state, the release of reset and INIT leave equal
values in every register a rule reads, and an INIT after reset changes nothing. That an INIT after reset keeps the cells
of `BUF` too is the model's reading (notes/assumptions/2.md). -/
def Obligations.ResetAndInitAgree : Prop :=
  exec .init State.reset = .next State.reset ∧
  ∀ (s : State) (rest : List HostEvent), s.resetAsserted = true → s.inputs = .releaseReset :: rest →
    ∃ t u, step s = .next t ∧
      exec .init { s with inputs := rest, resetAsserted := false } = .next u ∧ t.AgreeRead u

/-- R29: the fields of `STATUS`. -/
def Obligations.StatusFields : Prop :=
  ∀ s : State,
    ((statusBits s).extractLsb' 0 1 = 0 ↔ s.phase = .accepting) ∧
    ((statusBits s).extractLsb' 0 1 = 1 ↔ s.phase = .finalized) ∧
    (statusBits s).extractLsb' 1 2 = errBits s.err ∧
    ((statusBits s).extractLsb' 3 1 = 1 ↔ s.phase = .finalized ∧ s.err = .noError) ∧
    (statusBits s).extractLsb' 4 4 = 0

/-- R140: the cause codes 0 to 3. -/
def Obligations.CauseCodes : Prop :=
  errBits .noError = 0 ∧ errBits .appendAfterFinalize = 1 ∧ errBits .finalizeAfterFinalize = 2 ∧
  errBits .illegalCommand = 3

/-- R31 and R42: while `DVALID = 1`, byte `4q + r` of `DIGEST` is byte `r`, counted from the low end, of state word `q`
in the order A, B, C, D; while `DVALID = 0` it is not observable. -/
def Obligations.DigestBytes : Prop :=
  ∀ s : State, s.resetAsserted = false →
    (dvalid s = false → digestOut s = none) ∧
    (dvalid s = true → ∃ d, digestOut s = some d ∧
      ∀ r < 4,
        d.extractLsb' (8 * r) 8 = s.h.a.extractLsb' (8 * r) 8 ∧
        d.extractLsb' (8 * (4 + r)) 8 = s.h.b.extractLsb' (8 * r) 8 ∧
        d.extractLsb' (8 * (8 + r)) 8 = s.h.c.extractLsb' (8 * r) 8 ∧
        d.extractLsb' (8 * (12 + r)) 8 = s.h.d.extractLsb' (8 * r) 8)

/-! ### The compression function and the padding -/

/-- R80: bit `j` of `rotl32(x, s)` is bit `(j - s) mod 32` of `x`; a rotation by a multiple of 32 is none. -/
def Obligations.RotateLeftBits : Prop :=
  ∀ (x : Word) (s : Nat),
    (∀ j < 32, (rotl32 x s).getLsbD j = x.getLsbD ((j + (32 - s % 32)) % 32)) ∧
    (s % 32 = 0 → rotl32 x s = x)

/-- The mixing functions bit by bit (R81 to R84): if x then y else z, if z then x else y, parity, and `y ⊕ (x ∨ ¬z)`. -/
def Obligations.MixingFunctionsBitwise : Prop :=
  ∀ (x y z : Word), ∀ j < 32,
    (mixF x y z).getLsbD j = (if x.getLsbD j then y.getLsbD j else z.getLsbD j) ∧
    (mixG x y z).getLsbD j = (if z.getLsbD j then x.getLsbD j else y.getLsbD j) ∧
    (mixH x y z).getLsbD j = (x.getLsbD j ^^ y.getLsbD j ^^ z.getLsbD j) ∧
    (mixI x y z).getLsbD j = (y.getLsbD j ^^ (x.getLsbD j || !z.getLsbD j))

/-- R86: the message index of index `i` in round `r`, and each round visits every one of the 16 block words exactly
once, which the spec marks as derived from the formulas. -/
def Obligations.EachRoundVisitsEveryWord : Prop :=
  ∀ r < 4,
    (∀ i < 16, ((schedule.map fun row => row.k.val)[16 * r + i]?) =
      some (if r = 0 then i else if r = 1 then (1 + 5 * i) % 16 else if r = 2 then (5 + 3 * i) % 16 else 7 * i % 16)) ∧
    (((schedule.drop (16 * r)).take 16).map fun row => row.k).Perm (List.finRange 16)

/-- R85 and R87: step `t` takes the mixing function of its round and the rotation amount of its place in the round's
four. -/
def Obligations.RoundFunctionsAndRotations : Prop :=
  schedule.length = 64 ∧
  ∀ t < 64, (schedule[t]?.map fun row => (row.fn, row.s)) =
    some ((if t < 16 then MixFn.F else if t < 32 then .G else if t < 48 then .H else .I),
      ([7, 12, 17, 22, 5, 9, 14, 20, 4, 11, 16, 23, 6, 10, 15, 21].getD (t / 16 * 4 + t % 4) 0))

/-- R90 in fixed names: four steps compute, in order, a new a, a new d, a new c and a new b, each from the newest values
of the other three. -/
def Obligations.FourStepsInFixedNames : Prop :=
  ∀ (x : Vector Word 16) (v : Quad) (r0 r1 r2 r3 : StepRow),
    let a := v.b + rotl32 (v.a + mix r0.fn v.b v.c v.d + x[r0.k] + r0.const) r0.s
    let d := a + rotl32 (v.d + mix r1.fn a v.b v.c + x[r1.k] + r1.const) r1.s
    let c := d + rotl32 (v.c + mix r2.fn d a v.b + x[r2.k] + r2.const) r2.s
    let b := c + rotl32 (v.b + mix r3.fn c d a + x[r3.k] + r3.const) r3.s
    [r0, r1, r2, r3].foldl (mixStep x) v = ⟨a, b, c, d⟩

/-- The padding (R116, R117; the spec marks the closed form of `z` and R117 as derived): `z = (55 - n) mod 64` is the
least count that brings the fill to 56 modulo 64, the string has `z + 9` bytes, 9 to 72, begins with `80` and ends with
the length field, and fills one block up to fill 55 and two from 56 on. -/
def Obligations.PaddingShape : Prop :=
  ∀ (n : Nat) (bitlen : Word64), n < 64 →
    (padZeros n : Int) = (55 - (n : Int)) % 64 ∧ (n + 1 + padZeros n) % 64 = 56 ∧ (∀ z < padZeros n, (n + 1 + z) % 64 ≠ 56) ∧
    pad n bitlen = [0x80] ++ List.replicate (padZeros n) 0 ++ bytesLe64 bitlen ∧
    (pad n bitlen).length = padZeros n + 9 ∧ 9 ≤ (pad n bitlen).length ∧ (pad n bitlen).length ≤ 72 ∧
    n + (pad n bitlen).length = (if n ≤ 55 then 64 else 128)

/-! ### Timing, the port at the clock, and several instances -/

/-- The TRANSFORMs of a command (R117, R165): 0 or 1 for APPEND, exactly 1 or 2 for an executing FINALIZE by `BUFLEN`,
and 0 for every other word, in every state. -/
def Obligations.TransformsPerCommand : Prop :=
  ∀ (w : Word64) (s : State),
    (∀ cnt data, decode w = .command (.append cnt data) →
      commandTransforms w s =
        (if s.err = .noError ∧ s.phase = .accepting ∧ 64 ≤ s.bufLen.toNat + cnt.toNat then 1 else 0)) ∧
    (decode w = .command .finalize → s.err = .noError → s.phase = .accepting →
      commandTransforms w s = (if s.bufLen.toNat ≤ 55 then 1 else 2)) ∧
    (s.err ≠ .noError ∨ s.phase = .finalized → commandTransforms w s = 0) ∧
    ((decode w = .command .nop ∨ decode w = .command .init ∨ legal w = false) → commandTransforms w s = 0)

/-- The busy interval (R164 to R167): after a command is accepted, for fewer edges than `LAT_CMD` and `LAT_BLOCK` per
TRANSFORM add up to, and without reset, the core is not ready, accepts nothing whatever is presented, and shows no
output. -/
def Obligations.BusyCoreAcceptsNothing : Prop :=
  ∀ (w : Word64) (c d : Clocked) (es : List Edge), acceptAtEdge w c = .next d → (∀ e ∈ es, e.reset = false) →
    es.length < Config.latCmd + commandTransforms w c.core * Config.latBlock →
    ∃ d', runEdges es d = .next d' ∧ d'.core = d.core ∧ d'.taken = d.taken ∧ d'.ready = false ∧
      d'.statusOut = none ∧ d'.errCmdOut = none ∧ d'.digestOut = none

/-- Reset at the clock (R160, R168): an edge with reset asserted abandons whatever command is in its busy interval, and
the registers have their reset values, at that edge already: R160 gives them for the release, and the clocked view's
loading them at the assertion is the model's choice (notes/assumptions/7.md). -/
def Obligations.ResetAbandonsACommand : Prop :=
  ∀ (e : Edge) (c : Clocked), e.reset = true →
    ∃ d, clockEdge e c = .next d ∧ d.ready = false ∧ d.taken = [] ∧
      d.core.h = ⟨0x67452301, 0xefcdab89, 0x98badcfe, 0x10325476⟩ ∧ d.core.bufLen = 0 ∧ d.core.count = 0 ∧
      d.core.phase = .accepting ∧ d.core.err = .noError ∧ d.core.errCmd = 0

/-- The core at its clock refines the sequence of accepted words (R52, R164, R170). Every edge, from every clocked core
whose registers are those of the words accepted since the last reset, run in order from the reset state, keeps them so;
and they are so after any edges from reset, with any presentations, waits and resets. That the registers change at the
acceptance edge and load at the assertion of reset, and that reset leaves zeros in `BUF`, are the model's choices
(notes/assumptions/5.md, notes/assumptions/7.md, notes/assumptions/1.md). -/
def Obligations.ClockRefinesCommandRuns : Prop :=
  (∀ (e : Edge) (c : Clocked), runCommands c.taken State.reset = .next c.core →
    ∃ d, clockEdge e c = .next d ∧ runCommands d.taken State.reset = .next d.core) ∧
  (∀ es : List Edge, ∃ c, runEdges es Clocked.reset = .next c ∧ runCommands c.taken State.reset = .next c.core)

/-- Independent instances (R51): a step of one never changes another's state, and is its own core's step. -/
def Obligations.InstancesAreIndependent : Prop :=
  ∀ (n : Nat) [NeZero n] (k : Fin n) (p : Platform n),
    ∃ q, Platform.stepAt k p = .next q ∧ step p[k] = .next q[k] ∧ ∀ j : Fin n, j ≠ k → q[j] = p[j]

/-- Steps of different instances may be interleaved in any order (R51). -/
def Obligations.InstancesInterleave : Prop :=
  ∀ (n : Nat) [NeZero n] (j k : Fin n) (p q r : Platform n), j ≠ k →
    Platform.stepAt j p = .next q → Platform.stepAt k q = .next r →
    ∃ q', Platform.stepAt k p = .next q' ∧ Platform.stepAt j q' = .next r
end

