-- ==== Sys2Proof/Laws/State.lean ====
section
/-! SUPPORT. What each shared update of the state leaves in each field: one lemma a field an update, so that no proof unfolds a
record update. -/

namespace Sys2Proof.Machine

section StartMessage
variable (s : State)
@[simp] theorem startMessage_h : (startMessage s).h = iv := rfl
@[simp] theorem startMessage_buf : (startMessage s).buf = s.buf := rfl
@[simp] theorem startMessage_bufLen : (startMessage s).bufLen = 0 := rfl
@[simp] theorem startMessage_count : (startMessage s).count = 0 := rfl
@[simp] theorem startMessage_phase : (startMessage s).phase = .accepting := rfl
@[simp] theorem startMessage_err : (startMessage s).err = .noError := rfl
@[simp] theorem startMessage_errCmd : (startMessage s).errCmd = 0 := rfl
@[simp] theorem startMessage_cmdValid : (startMessage s).cmdValid = s.cmdValid := rfl
@[simp] theorem startMessage_cmdWord : (startMessage s).cmdWord = s.cmdWord := rfl
@[simp] theorem startMessage_resetAsserted : (startMessage s).resetAsserted = s.resetAsserted := rfl
@[simp] theorem startMessage_inputs : (startMessage s).inputs = s.inputs := rfl
end StartMessage

section ResetRegisters
variable (s : State)
@[simp] theorem resetRegisters_h : (resetRegisters s).h = iv := rfl
@[simp] theorem resetRegisters_bufLen : (resetRegisters s).bufLen = 0 := rfl
@[simp] theorem resetRegisters_count : (resetRegisters s).count = 0 := rfl
@[simp] theorem resetRegisters_phase : (resetRegisters s).phase = .accepting := rfl
@[simp] theorem resetRegisters_err : (resetRegisters s).err = .noError := rfl
@[simp] theorem resetRegisters_errCmd : (resetRegisters s).errCmd = 0 := rfl
@[simp] theorem resetRegisters_cmdValid : (resetRegisters s).cmdValid = s.cmdValid := rfl
@[simp] theorem resetRegisters_cmdWord : (resetRegisters s).cmdWord = s.cmdWord := rfl
@[simp] theorem resetRegisters_resetAsserted : (resetRegisters s).resetAsserted = false := rfl
@[simp] theorem resetRegisters_inputs : (resetRegisters s).inputs = s.inputs := rfl
end ResetRegisters

section TakeWord
variable (s : State)
@[simp] theorem takeWord_h : (takeWord s).h = s.h := rfl
@[simp] theorem takeWord_buf : (takeWord s).buf = s.buf := rfl
@[simp] theorem takeWord_bufLen : (takeWord s).bufLen = s.bufLen := rfl
@[simp] theorem takeWord_count : (takeWord s).count = s.count := rfl
@[simp] theorem takeWord_phase : (takeWord s).phase = s.phase := rfl
@[simp] theorem takeWord_err : (takeWord s).err = s.err := rfl
@[simp] theorem takeWord_errCmd : (takeWord s).errCmd = s.errCmd := rfl
@[simp] theorem takeWord_cmdValid : (takeWord s).cmdValid = false := rfl
@[simp] theorem takeWord_cmdWord : (takeWord s).cmdWord = s.cmdWord := rfl
@[simp] theorem takeWord_resetAsserted : (takeWord s).resetAsserted = s.resetAsserted := rfl
@[simp] theorem takeWord_inputs : (takeWord s).inputs = s.inputs := rfl
end TakeWord

section RaiseError
variable (code : ErrCode) (w : Word64) (s : State)

/-- Everything taking an error can do (R141): the first is latched, a later one changes nothing. -/
theorem raiseError_cases :
    (s.err = .noError ∧ raiseError code w s = { s with err := code, errCmd := w }) ∨
    (s.err ≠ .noError ∧ raiseError code w s = s) := by
  by_cases h : s.err = .noError <;> simp [raiseError, h]

theorem raiseError_first (h : s.err = .noError) : raiseError code w s = { s with err := code, errCmd := w } := by
  simp [raiseError, h]

theorem raiseError_later (h : s.err ≠ .noError) : raiseError code w s = s := by simp [raiseError, h]

@[simp] theorem raiseError_h : (raiseError code w s).h = s.h := by unfold raiseError; split <;> rfl
@[simp] theorem raiseError_buf : (raiseError code w s).buf = s.buf := by unfold raiseError; split <;> rfl
@[simp] theorem raiseError_bufLen : (raiseError code w s).bufLen = s.bufLen := by unfold raiseError; split <;> rfl
@[simp] theorem raiseError_count : (raiseError code w s).count = s.count := by unfold raiseError; split <;> rfl
@[simp] theorem raiseError_phase : (raiseError code w s).phase = s.phase := by unfold raiseError; split <;> rfl
@[simp] theorem raiseError_cmdValid : (raiseError code w s).cmdValid = s.cmdValid := by unfold raiseError; split <;> rfl
@[simp] theorem raiseError_cmdWord : (raiseError code w s).cmdWord = s.cmdWord := by unfold raiseError; split <;> rfl
@[simp] theorem raiseError_resetAsserted : (raiseError code w s).resetAsserted = s.resetAsserted := by
  unfold raiseError; split <;> rfl
@[simp] theorem raiseError_inputs : (raiseError code w s).inputs = s.inputs := by unfold raiseError; split <;> rfl
end RaiseError

/-- Everything the shared checks of APPEND and FINALIZE can answer (R110, R146). -/
theorem whenAccepting_cases (misuse : ErrCode) (w : Word64) (effect : State → State) (s : State) :
    (s.err ≠ .noError ∧ whenAccepting misuse w effect s = s) ∨
    (s.err = .noError ∧ s.phase = .finalized ∧
      whenAccepting misuse w effect s = { s with err := misuse, errCmd := w }) ∨
    (s.err = .noError ∧ s.phase = .accepting ∧ whenAccepting misuse w effect s = effect s) := by
  by_cases h : s.err = .noError
  · cases hp : s.phase <;> simp [whenAccepting, h, hp, raiseError]
  · simp [whenAccepting, h]

end Sys2Proof.Machine
end

