-- ==== Sys2Proof/Laws/Absorb.lean ====
section
/-! SUPPORT. ABSORB (R111): what it leaves alone, and what a string of absorbed bytes does to the chaining state and the pending
bytes, said with R120's blocks. -/

namespace Sys2Proof.Machine

section Frame
variable (s : State) (b : Byte)
@[simp] theorem absorb_count : (absorb s b).count = s.count := by unfold absorb; split <;> rfl
@[simp] theorem absorb_phase : (absorb s b).phase = s.phase := by unfold absorb; split <;> rfl
@[simp] theorem absorb_err : (absorb s b).err = s.err := by unfold absorb; split <;> rfl
@[simp] theorem absorb_errCmd : (absorb s b).errCmd = s.errCmd := by unfold absorb; split <;> rfl
@[simp] theorem absorb_cmdValid : (absorb s b).cmdValid = s.cmdValid := by unfold absorb; split <;> rfl
@[simp] theorem absorb_cmdWord : (absorb s b).cmdWord = s.cmdWord := by unfold absorb; split <;> rfl
@[simp] theorem absorb_resetAsserted : (absorb s b).resetAsserted = s.resetAsserted := by unfold absorb; split <;> rfl
@[simp] theorem absorb_inputs : (absorb s b).inputs = s.inputs := by unfold absorb; split <;> rfl
/-- The byte goes to `BUF[BUFLEN]` and no other cell changes. -/
theorem absorb_buf : (absorb s b).buf = s.buf.set s.bufLen.toNat b s.bufLen.isLt := by unfold absorb; split <;> rfl
/-- `BUFLEN` goes up by one, and from 63 to 0 (R23): one addition modulo 64. -/
theorem absorb_bufLen : (absorb s b).bufLen = s.bufLen + 1 := by
  unfold absorb
  split
  next h => exact (congrArg (· + 1) h).symm
  next => rfl
theorem absorb_h : (absorb s b).h =
    if s.bufLen = 63 then transform s.h (pack (s.buf.set s.bufLen.toNat b s.bufLen.isLt)) else s.h := by
  unfold absorb; split <;> rfl
end Frame

section AbsorbAll
variable (s : State)
@[simp] theorem absorbAll_nil : absorbAll s [] = s := rfl
@[simp] theorem absorbAll_cons (b : Byte) (bs : List Byte) : absorbAll s (b :: bs) = absorbAll (absorb s b) bs := rfl
variable (bs : List Byte)
@[simp] theorem absorbAll_count : (absorbAll s bs).count = s.count := by
  induction bs generalizing s with
  | nil => rfl
  | cons b bs ih => simp [ih]
@[simp] theorem absorbAll_phase : (absorbAll s bs).phase = s.phase := by
  induction bs generalizing s with
  | nil => rfl
  | cons b bs ih => simp [ih]
@[simp] theorem absorbAll_err : (absorbAll s bs).err = s.err := by
  induction bs generalizing s with
  | nil => rfl
  | cons b bs ih => simp [ih]
@[simp] theorem absorbAll_errCmd : (absorbAll s bs).errCmd = s.errCmd := by
  induction bs generalizing s with
  | nil => rfl
  | cons b bs ih => simp [ih]
@[simp] theorem absorbAll_cmdValid : (absorbAll s bs).cmdValid = s.cmdValid := by
  induction bs generalizing s with
  | nil => rfl
  | cons b bs ih => simp [ih]
@[simp] theorem absorbAll_cmdWord : (absorbAll s bs).cmdWord = s.cmdWord := by
  induction bs generalizing s with
  | nil => rfl
  | cons b bs ih => simp [ih]
@[simp] theorem absorbAll_resetAsserted : (absorbAll s bs).resetAsserted = s.resetAsserted := by
  induction bs generalizing s with
  | nil => rfl
  | cons b bs ih => simp [ih]
@[simp] theorem absorbAll_inputs : (absorbAll s bs).inputs = s.inputs := by
  induction bs generalizing s with
  | nil => rfl
  | cons b bs ih => simp [ih]
/-- `BUFLEN` counts the absorbed bytes modulo 64. -/
theorem absorbAll_bufLen : (absorbAll s bs).bufLen = s.bufLen + BitVec.ofNat 6 bs.length := by
  induction bs generalizing s with
  | nil => simp
  | cons b bs ih =>
    rw [absorbAll_cons, ih, absorb_bufLen, List.length_cons, BitVec.ofNat_add, BitVec.add_assoc, BitVec.add_comm 1]
    rfl
end AbsorbAll

section Blocks

theorem pendingBytes_length (s : State) : (pendingBytes s).length = s.bufLen.toNat := by
  have := s.bufLen.isLt
  simp [pendingBytes]; omega

/-- A block's words depend on its first 64 bytes only. -/
theorem packList_append (xs ys : List Byte) (h : 64 ≤ xs.length) : packList (xs ++ ys) = packList xs := by
  unfold packList
  congr 2
  funext j
  have := j.isLt
  simp [List.getD, List.getElem?_append_left (show j.val < xs.length by omega)]

/-- Packing a full buffer is packing the list of its bytes. -/
theorem pack_eq_packList (buf : Vector Byte 64) : pack buf = packList buf.toList := by
  refine congrArg pack (Vector.ext fun j hj => ?_)
  simp [List.getD]

/-- Storing one byte at `BUFLEN` appends it to the pending bytes. -/
theorem take_set_succ (buf : Vector Byte 64) (n : Nat) (hn : n < 64) (b : Byte) :
    (buf.set n b hn).toList.take (n + 1) = buf.toList.take n ++ [b] := by
  rw [Vector.toList_set, List.take_add_one]
  simp [List.take_set_of_le, hn]

theorem pendingBytes_absorb_of_ne (s : State) (b : Byte) (h : s.bufLen ≠ 63) :
    pendingBytes (absorb s b) = pendingBytes s ++ [b] := by
  have hn : (s.bufLen + 1).toNat = s.bufLen.toNat + 1 := by
    have : s.bufLen.toNat ≠ 63 := fun e => h (BitVec.eq_of_toNat_eq e)
    have := s.bufLen.isLt
    rw [BitVec.toNat_add]; simp; omega
  unfold pendingBytes
  rw [absorb_bufLen, absorb_buf, hn, take_set_succ]

/-- The byte that fills the buffer: its 64 bytes are the pending ones and it. -/
theorem toList_set_full (s : State) (b : Byte) (h : s.bufLen = 63) :
    (s.buf.set s.bufLen.toNat b s.bufLen.isLt).toList = pendingBytes s ++ [b] := by
  have h63 : s.bufLen.toNat = 63 := by rw [h]; rfl
  rw [pendingBytes, ← take_set_succ s.buf s.bufLen.toNat s.bufLen.isLt b, List.take_of_length_le (by simp [h63])]

theorem absorb_full (s : State) (b : Byte) (h : s.bufLen = 63) :
    (absorb s b).h = transform s.h (packList (pendingBytes s ++ [b])) ∧ pendingBytes (absorb s b) = [] := by
  constructor
  · rw [absorb_h, if_pos h, pack_eq_packList, toList_set_full s b h]
  · have : (absorb s b).bufLen = 0 := by rw [absorb_bufLen, h]; rfl
    simp [pendingBytes, this]

/-- Compressing `n` whole blocks looks at those blocks only. -/
theorem compressBlocks_append (n : Nat) (h : Quad) (xs ys : List Byte) (hl : 64 * n ≤ xs.length) :
    compressBlocks n h (xs ++ ys) = compressBlocks n h xs := by
  induction n generalizing h xs with
  | zero => rfl
  | succ n ih =>
    unfold compressBlocks
    rw [packList_append xs ys (by omega), List.drop_append_of_le_length (by omega)]
    exact ih _ _ (by simp; omega)

/-- Compressing blocks one stretch after another. -/
theorem compressBlocks_add (m n : Nat) (h : Quad) (bytes : List Byte) :
    compressBlocks (m + n) h bytes = compressBlocks n (compressBlocks m h bytes) (bytes.drop (64 * m)) := by
  induction m generalizing h bytes with
  | zero => simp [compressBlocks]
  | succ m ih =>
    rw [show m + 1 + n = (m + n) + 1 by omega]
    simp only [compressBlocks]
    rw [ih, List.drop_drop]
    congr 2
    omega

/-- What absorbing a string does (R111, R120): the pending bytes and the string, joined, are compressed block by block,
and what is left over is pending. -/
theorem absorbAll_blocks (s : State) (bs : List Byte) :
    (absorbAll s bs).h = compressBlocks ((pendingBytes s ++ bs).length / 64) s.h (pendingBytes s ++ bs) ∧
    pendingBytes (absorbAll s bs) =
      (pendingBytes s ++ bs).drop (64 * ((pendingBytes s ++ bs).length / 64)) := by
  induction bs generalizing s with
  | nil =>
    have := pendingBytes_length s
    have := s.bufLen.isLt
    have h0 : (pendingBytes s).length / 64 = 0 := by omega
    simp [h0, compressBlocks]
  | cons b bs ih =>
    rw [absorbAll_cons]
    have hs : pendingBytes s ++ b :: bs = (pendingBytes s ++ [b]) ++ bs := by simp
    by_cases h : s.bufLen = 63
    · obtain ⟨hh, hp⟩ := absorb_full s b h
      obtain ⟨ih1, ih2⟩ := ih (absorb s b)
      have hl : (pendingBytes s ++ [b]).length = 64 := by
        have := pendingBytes_length s
        rw [h] at this
        simp [this]
      have hd : ((pendingBytes s ++ [b]) ++ bs).length / 64 = bs.length / 64 + 1 := by
        rw [List.length_append, hl]; omega
      rw [hp, List.nil_append] at ih1 ih2
      rw [ih1, ih2, hs, hd, hh]
      refine ⟨?_, ?_⟩
      · simp only [compressBlocks]
        rw [packList_append _ _ (Nat.le_of_eq hl.symm), List.drop_append_of_le_length (Nat.le_of_eq hl.symm),
          List.drop_of_length_le (Nat.le_of_eq hl), List.nil_append]
      · rw [show 64 * (bs.length / 64 + 1) = (pendingBytes s ++ [b]).length + 64 * (bs.length / 64) by omega,
          List.drop_length_add_append]
    · obtain ⟨ih1, ih2⟩ := ih (absorb s b)
      rw [pendingBytes_absorb_of_ne s b h] at ih1 ih2
      rw [ih1, ih2, hs, absorb_h, if_neg h]
      exact ⟨rfl, rfl⟩

/-- The cells absorbing stores to: byte `j` in cell `(BUFLEN + j) mod 64`, and no other cell, for at most 64 bytes. -/
theorem absorbAll_cells (s : State) (bs : List Byte) (hl : bs.length ≤ 64) :
    (∀ (c : Fin 64) (j : Nat) (hj : j < bs.length), c.val = (s.bufLen.toNat + j) % 64 →
      (absorbAll s bs).buf[c] = bs[j]) ∧
    (∀ c : Fin 64, (∀ j < bs.length, c.val ≠ (s.bufLen.toNat + j) % 64) → (absorbAll s bs).buf[c] = s.buf[c]) := by
  induction bs generalizing s with
  | nil => simp
  | cons b bs ih =>
    have hs := s.bufLen.isLt
    simp only [List.length_cons] at hl
    obtain ⟨stored, kept⟩ := ih (absorb s b) (by omega)
    have e : (absorb s b).bufLen.toNat = (s.bufLen.toNat + 1) % 64 := by rw [absorb_bufLen]; simp [BitVec.toNat_add]
    rw [e] at stored kept
    rw [absorbAll_cons]
    constructor
    · rintro c (_ | j) hj hc
      · rw [kept c (by intro j hj'; omega)]
        have : c.val = s.bufLen.toNat := by omega
        simp [absorb_buf, this]
      · simpa using stored c j (by simpa using hj) (by omega)
    · intro c hc
      have h0 := hc 0 (by simp)
      rw [kept c (by intro j hj; have := hc (j + 1) (by simpa using hj); omega)]
      simp only [absorb_buf, Fin.getElem_fin]
      rw [Vector.getElem_set_ne]
      omega

end Blocks

section AppendBytes

@[simp] theorem appendBytes_nil (s : State) : appendBytes s [] = s := rfl
@[simp] theorem appendBytes_cons (s : State) (b : Byte) (bs : List Byte) :
    appendBytes s (b :: bs) = appendBytes (appendByte s b) bs := rfl
theorem appendBytes_append (s : State) (xs ys : List Byte) :
    appendBytes s (xs ++ ys) = appendBytes (appendBytes s xs) ys := by simp [appendBytes]

/-- ABSORB does not read `COUNT`, so counting first or last is the same. -/
theorem absorb_withCount (s : State) (c : Word64) (b : Byte) :
    absorb { s with count := c } b = { absorb s b with count := c } := by
  unfold absorb; split <;> rfl

theorem absorbAll_withCount (s : State) (c : Word64) (bs : List Byte) :
    absorbAll { s with count := c } bs = { absorbAll s bs with count := c } := by
  induction bs generalizing s with
  | nil => rfl
  | cons b bs ih => rw [absorbAll_cons, absorb_withCount, ih, absorbAll_cons]

/-- An APPEND's loop (R114) is ABSORB of its bytes and one addition to `COUNT`. -/
theorem appendBytes_eq (s : State) (bs : List Byte) :
    appendBytes s bs = { absorbAll s bs with count := s.count + BitVec.ofNat 64 bs.length } := by
  induction bs generalizing s with
  | nil => simp
  | cons b bs ih =>
    rw [appendBytes_cons, ih, appendByte, absorb_withCount, absorbAll_withCount, absorbAll_cons]
    rw [List.length_cons, Nat.add_comm, BitVec.ofNat_add, ← BitVec.add_assoc]
    rfl

@[simp] theorem laneBytes_length (cnt : BitVec 3) (data : BitVec 32) : (laneBytes cnt data).length = cnt.toNat := by
  simp [laneBytes]

/-- The port plays no part in absorbing. -/
theorem absorb_withPort (s : State) (v : Bool) (w : Word64) (r : Bool) (ins : List HostEvent) (b : Byte) :
    absorb { s with cmdValid := v, cmdWord := w, resetAsserted := r, inputs := ins } b =
      { absorb s b with cmdValid := v, cmdWord := w, resetAsserted := r, inputs := ins } := by
  unfold absorb; split <;> rfl

theorem absorbAll_withPort (s : State) (v : Bool) (w : Word64) (r : Bool) (ins : List HostEvent) (bs : List Byte) :
    absorbAll { s with cmdValid := v, cmdWord := w, resetAsserted := r, inputs := ins } bs =
      { absorbAll s bs with cmdValid := v, cmdWord := w, resetAsserted := r, inputs := ins } := by
  induction bs generalizing s with
  | nil => rfl
  | cons b bs ih => rw [absorbAll_cons, absorb_withPort, ih, absorbAll_cons]

end AppendBytes

@[simp] theorem bytesLe64_length (v : Word64) : (bytesLe64 v).length = 8 := rfl

@[simp] theorem serialize_length (h : Quad) : (serialize h).length = 16 := rfl

theorem pad_length (n : Nat) (v : Word64) : (pad n v).length = padZeros n + 9 := by simp [pad]

/-- `BUFLEN` after the padding is absorbed (R117). -/
theorem absorbAll_pad_bufLen (s : State) (v : Word64) : (absorbAll s (pad s.bufLen.toNat v)).bufLen = 0 := by
  rw [absorbAll_bufLen, pad_length]
  have := s.bufLen.isLt
  apply BitVec.eq_of_toNat_eq
  simp [BitVec.toNat_add, padZeros]
  omega

end Sys2Proof.Machine
end

