-- ==== Sys2Proof/Laws/Bytes.lean ====
section
/-! SUPPORT. Little-endian assembly and its lanes (R41, R44): each undoes the other. -/

namespace Sys2Proof.Machine

section Lanes
variable (b0 b1 b2 b3 : Byte)
@[simp] theorem lane_le32_zero : lane (le32 b0 b1 b2 b3) 0 = b0 := by
  unfold lane le32
  ext j hj
  interval_cases j <;> simp
@[simp] theorem lane_le32_one : lane (le32 b0 b1 b2 b3) 1 = b1 := by
  unfold lane le32
  ext j hj
  interval_cases j <;> simp
@[simp] theorem lane_le32_two : lane (le32 b0 b1 b2 b3) 2 = b2 := by
  unfold lane le32
  ext j hj
  interval_cases j <;> simp
@[simp] theorem lane_le32_three : lane (le32 b0 b1 b2 b3) 3 = b3 := by
  unfold lane le32
  ext j hj
  interval_cases j <;> simp
end Lanes

@[simp] theorem le32_lanes (data : BitVec 32) :
    le32 (lane data 0) (lane data 1) (lane data 2) (lane data 3) = data := by
  unfold le32 lane
  ext j hj
  interval_cases j <;> simp

/-- Word `j` of a packed block (R41). -/
theorem pack_getElem (blk : Vector Byte 64) (j : Fin 16) :
    (pack blk)[j] = le32 blk[4 * j.val] blk[4 * j.val + 1] blk[4 * j.val + 2] blk[4 * j.val + 3] := by
  simp [pack]

/-- Byte `i` of a port that carries at most 16 bytes (R31). -/
theorem portBytes_byte (bytes : List Byte) (i : Nat) (hi : i < bytes.length) (hl : bytes.length ≤ 16) :
    (portBytes bytes).extractLsb' (8 * i) 8 = bytes[i] := by
  induction bytes generalizing i with
  | nil => simp at hi
  | cons b bs ih =>
    simp only [List.length_cons] at hi hl
    cases i with
    | zero =>
      ext j hj
      simp [portBytes, show j < 128 by omega, hj]
    | succ i =>
      rw [List.getElem_cons_succ, ← ih i (by omega) (by omega)]
      ext j hj
      have h1 : 8 * (i + 1) + j < 128 := by omega
      have h2 : ¬ 8 * (i + 1) + j < 8 := by omega
      have h3 : 8 * (i + 1) + j - 8 = 8 * i + j := by omega
      simp [portBytes, h1, h2, h3, BitVec.getLsbD_of_ge b (8 * (i + 1) + j) (by omega)]
      exact (BitVec.getLsbD_eq_getElem (by omega)).symm

end Sys2Proof.Machine
end

