-- ==== Sys2Proof/Laws/Decode.lean ====
section
/-! SUPPORT. The fields of a command word as numbers, a word from its fields, and what each answer of the decoder says. -/

namespace Sys2Proof

section FieldValues
variable (w : Word64)
theorem opcField_toNat : (opcField w).toNat = w.toNat / 2 ^ 60 := by
  have := w.isLt
  simp only [opcField, BitVec.extractLsb'_toNat, Nat.shiftRight_eq_div_pow]
  omega
theorem belowOpc_toNat : (belowOpc w).toNat = w.toNat % 2 ^ 60 := by
  simp [belowOpc]
theorem rsvField_toNat : (rsvField w).toNat = w.toNat / 2 ^ 35 % 2 ^ 25 := by
  simp [rsvField, Nat.shiftRight_eq_div_pow]
theorem cntField_toNat : (cntField w).toNat = w.toNat / 2 ^ 32 % 2 ^ 3 := by
  simp [cntField, Nat.shiftRight_eq_div_pow]
theorem dataField_toNat : (dataField w).toNat = w.toNat % 2 ^ 32 := by
  simp [dataField]
end FieldValues

section Fields
variable (opc : BitVec 4) (rsv : BitVec 25) (cnt : BitVec 3) (data : BitVec 32)

theorem commandWord_toNat : (commandWord opc rsv cnt data).toNat =
    opc.toNat * 2 ^ 60 + rsv.toNat * 2 ^ 35 + cnt.toNat * 2 ^ 32 + data.toNat := by
  show (opc ++ rsv ++ cnt ++ data : BitVec (4 + 25 + 3 + 32)).toNat = _
  simp only [BitVec.toNat_append]
  rw [← Nat.shiftLeft_add_eq_or_of_lt data.isLt, ← Nat.shiftLeft_add_eq_or_of_lt cnt.isLt,
    ← Nat.shiftLeft_add_eq_or_of_lt rsv.isLt]
  simp only [Nat.shiftLeft_eq]
  omega

@[simp] theorem opcField_commandWord : opcField (commandWord opc rsv cnt data) = opc := by
  apply BitVec.eq_of_toNat_eq
  rw [opcField_toNat, commandWord_toNat]
  have := rsv.isLt; have := cnt.isLt; have := data.isLt
  omega
@[simp] theorem rsvField_commandWord : rsvField (commandWord opc rsv cnt data) = rsv := by
  apply BitVec.eq_of_toNat_eq
  rw [rsvField_toNat, commandWord_toNat]
  have := rsv.isLt; have := cnt.isLt; have := data.isLt
  omega
@[simp] theorem cntField_commandWord : cntField (commandWord opc rsv cnt data) = cnt := by
  apply BitVec.eq_of_toNat_eq
  rw [cntField_toNat, commandWord_toNat]
  have := rsv.isLt; have := cnt.isLt; have := data.isLt
  omega
@[simp] theorem dataField_commandWord : dataField (commandWord opc rsv cnt data) = data := by
  apply BitVec.eq_of_toNat_eq
  rw [dataField_toNat, commandWord_toNat]
  have := rsv.isLt; have := cnt.isLt; have := data.isLt
  omega

/-- A word is made of its four fields (R60). -/
theorem commandWord_fields (w : Word64) :
    commandWord (opcField w) (rsvField w) (cntField w) (dataField w) = w := by
  apply BitVec.eq_of_toNat_eq
  rw [commandWord_toNat, opcField_toNat, rsvField_toNat, cntField_toNat, dataField_toNat]
  have := w.isLt
  omega
end Fields

/-- A well-formed APPEND is one with `CNT` at most 4 (R63). -/
@[simp] theorem wf_append (cnt : BitVec 3) (data : BitVec 32) :
    (Instr.append cnt data).wf = true ↔ cnt.toNat ≤ 4 := decide_eq_true_iff

/-- Below the opcode there are the three other fields. -/
theorem belowOpc_eq_zero_iff (w : Word64) :
    belowOpc w = 0 ↔ rsvField w = 0 ∧ cntField w = 0 ∧ dataField w = 0 := by
  simp only [← BitVec.toNat_inj, belowOpc_toNat, rsvField_toNat, cntField_toNat, dataField_toNat, BitVec.ofNat_eq_ofNat,
    BitVec.toNat_ofNat, Nat.zero_mod]
  omega

/-- Everything the decoder can answer (R64), one case a command and one for the words that spell none. -/
theorem decode_cases (w : Word64) :
    (decode w = .command .nop ∧ opcField w = 0 ∧ belowOpc w = 0) ∨
    (decode w = .command .init ∧ opcField w = 1 ∧ belowOpc w = 0) ∨
    (decode w = .command (.append (cntField w) (dataField w)) ∧ opcField w = 2 ∧ rsvField w = 0 ∧
      (cntField w).toNat ≤ 4) ∨
    (decode w = .command .finalize ∧ opcField w = 3 ∧ belowOpc w = 0) ∨
    (∃ why, decode w = .illegal why) := by
  unfold decode decodeBare decodeAppend Config.appendMax
  split
  · split <;> simp_all
  split
  · split <;> simp_all
  split
  · split
    · split <;> simp_all
    · simp
  split
  · split <;> simp_all
  · simp

end Sys2Proof
end

