-- ==== Sys2Proof/Laws/Exec.lean ====
section
/-! SUPPORT. Everything a command can do, said once: the claims cite these instead of unfolding `exec`, `acceptCommand` and
`step`. -/

namespace Sys2Proof.Machine

@[simp] theorem exec_nop (s : State) : exec .nop s = .next s := rfl

@[simp] theorem exec_init (s : State) : exec .init s = .next (startMessage s) := rfl

/-- A well-formed APPEND is always answered by a next state, one of three (R110). -/
theorem exec_append (cnt : BitVec 3) (data : BitVec 32) (s : State) (hc : cnt.toNat ≤ 4) :
    exec (.append cnt data) s = .next
      (whenAccepting .appendAfterFinalize (encode (.append cnt data)) (appendBytes · (laneBytes cnt data)) s) := by
  simp [exec, execAppend, hc]

theorem exec_finalize (s : State) :
    exec .finalize s = .next (whenAccepting .finalizeAfterFinalize (encode .finalize) padAndFinalize s) := rfl

/-- An APPEND that executes absorbs its bytes and adds their number to `COUNT` (R114). -/
theorem exec_append_accepting (cnt : BitVec 3) (data : BitVec 32) (s : State) (hc : cnt.toNat ≤ 4)
    (he : s.err = .noError) (hp : s.phase = .accepting) :
    exec (.append cnt data) s = .next
      { absorbAll s (laneBytes cnt data) with count := s.count + BitVec.ofNat 64 cnt.toNat } := by
  rw [exec_append cnt data s hc]
  simp only [whenAccepting, he, hp]
  rw [appendBytes_eq, laneBytes_length]
  rfl

/-- A FINALIZE that executes (R115). -/
theorem exec_finalize_accepting (s : State) (he : s.err = .noError) (hp : s.phase = .accepting) :
    exec .finalize s = .next (padAndFinalize s) := by
  rw [exec_finalize]
  simp [whenAccepting, he, hp]

/-- Everything an accepted word can do (R110, R146), the next state named in each case. -/
theorem acceptCommand_cases (w : Word64) (s : State) : ∃ t, acceptCommand w s = .next t ∧
    ((decode w = .command .nop ∧ t = s) ∨
     (decode w = .command .init ∧ t = startMessage s) ∨
     (∃ cnt data, decode w = .command (.append cnt data) ∧ cnt.toNat ≤ 4 ∧ encode (.append cnt data) = w ∧
       t = whenAccepting .appendAfterFinalize w (appendBytes · (laneBytes cnt data)) s) ∨
     (decode w = .command .finalize ∧ encode .finalize = w ∧
       t = whenAccepting .finalizeAfterFinalize w padAndFinalize s) ∨
     (∃ why, decode w = .illegal why ∧ t = raiseError .illegalCommand w s)) := by
  unfold acceptCommand
  rcases decode_cases w with ⟨h, -, -⟩ | ⟨h, -, -⟩ | ⟨h, ho, hr, hc⟩ | ⟨h, ho, hb⟩ | ⟨why, h⟩
  · exact ⟨s, by rw [h]; rfl, .inl ⟨h, rfl⟩⟩
  · exact ⟨_, by rw [h]; rfl, .inr (.inl ⟨h, rfl⟩)⟩
  · have he : encode (.append (cntField w) (dataField w)) = w := by
      conv => rhs; rw [← commandWord_fields w, ho, hr]
      rfl
    refine ⟨_, by rw [h]; exact exec_append _ _ s hc, .inr (.inr (.inl ⟨_, _, h, hc, he, ?_⟩))⟩
    rw [he]
  · obtain ⟨hr, hc, hd⟩ := (belowOpc_eq_zero_iff w).1 hb
    have he : encode .finalize = w := by
      conv => rhs; rw [← commandWord_fields w, ho, hr, hc, hd]
      rfl
    refine ⟨_, by rw [h]; exact exec_finalize s, .inr (.inr (.inr (.inl ⟨h, he, ?_⟩)))⟩
    rw [he]
  · exact ⟨_, by rw [h], .inr (.inr (.inr (.inr ⟨why, h, rfl⟩)))⟩

theorem whenAccepting_withPort (misuse : ErrCode) (c : Word64) (effect : State → State) (s : State)
    (v : Bool) (w : Word64) (r : Bool) (ins : List HostEvent)
    (heff : effect { s with cmdValid := v, cmdWord := w, resetAsserted := r, inputs := ins } =
      { effect s with cmdValid := v, cmdWord := w, resetAsserted := r, inputs := ins }) :
    whenAccepting misuse c effect { s with cmdValid := v, cmdWord := w, resetAsserted := r, inputs := ins } =
      { whenAccepting misuse c effect s with cmdValid := v, cmdWord := w, resetAsserted := r, inputs := ins } := by
  unfold whenAccepting
  dsimp only
  split
  · rfl
  · split
    · unfold raiseError
      dsimp only
      split <;> rfl
    · exact heff

/-- The port plays no part in what an accepted word does to the registers. -/
theorem acceptCommand_withPort (c : Word64) (s t : State) (v : Bool) (w : Word64) (r : Bool) (ins : List HostEvent)
    (h : acceptCommand c s = .next t) :
    acceptCommand c { s with cmdValid := v, cmdWord := w, resetAsserted := r, inputs := ins } =
      .next { t with cmdValid := v, cmdWord := w, resetAsserted := r, inputs := ins } := by
  obtain ⟨u, hu, hc⟩ := acceptCommand_cases c s
  obtain ⟨u', hu', hc'⟩ := acceptCommand_cases c { s with cmdValid := v, cmdWord := w, resetAsserted := r, inputs := ins }
  rw [hu] at h
  cases h
  rw [hu']
  congr 1
  rcases hc with ⟨h, rfl⟩ | ⟨h, rfl⟩ | ⟨cnt, data, h, -, -, rfl⟩ | ⟨h, -, rfl⟩ | ⟨_, h, rfl⟩ <;>
    simp only [h, Decoded.command.injEq, reduceCtorEq, false_and, true_and, exists_false, false_or, or_false,
      Instr.append.injEq] at hc'
  · exact hc'
  · exact hc'
  · obtain ⟨cnt', data', ⟨rfl, rfl⟩, -, -, rfl⟩ := hc'
    apply whenAccepting_withPort
    simp only [appendBytes_eq]
    rw [absorbAll_withPort]
  · obtain ⟨-, rfl⟩ := hc'
    apply whenAccepting_withPort
    unfold padAndFinalize
    dsimp only
    rw [absorbAll_withPort]
  · obtain ⟨_, -, rfl⟩ := hc'
    unfold raiseError
    dsimp only
    split <;> rfl

/-- A command leaves the pins and the host's actions alone. -/
theorem acceptCommand_port (c : Word64) (s t : State) (h : acceptCommand c s = .next t) :
    t.cmdValid = s.cmdValid ∧ t.cmdWord = s.cmdWord ∧ t.resetAsserted = s.resetAsserted ∧ t.inputs = s.inputs := by
  have ht : acceptCommand c s = .next { t with
      cmdValid := s.cmdValid, cmdWord := s.cmdWord, resetAsserted := s.resetAsserted, inputs := s.inputs } :=
    acceptCommand_withPort c s t s.cmdValid s.cmdWord s.resetAsserted s.inputs h
  rw [h] at ht
  injection ht with ht
  rw [ht]
  exact ⟨rfl, rfl, rfl, rfl⟩

/-- Everything a step can do (R164): it accepts the word on the port, or the host's next action takes place. -/
theorem step_cases (s : State) :
    (accepts s = true ∧ step s = acceptCommand s.cmdWord (takeWord s)) ∨
    (accepts s = false ∧ step s = .next (waitForHost s)) := by
  unfold step
  cases h : accepts s <;> simp

/-- Everything a waiting step can do. -/
theorem waitForHost_cases (s : State) :
    (s.inputs = [] ∧ waitForHost s = s) ∨
    (∃ w rest, s.inputs = .present w :: rest ∧
      waitForHost s = { s with inputs := rest, cmdValid := true, cmdWord := w }) ∨
    (∃ rest, s.inputs = .withdraw :: rest ∧ waitForHost s = { s with inputs := rest, cmdValid := false }) ∨
    (∃ rest, s.inputs = .assertReset :: rest ∧ waitForHost s = { s with inputs := rest, resetAsserted := true }) ∨
    (∃ rest, s.inputs = .releaseReset :: rest ∧ s.resetAsserted = true ∧
      waitForHost s = resetRegisters { s with inputs := rest }) ∨
    (∃ rest, s.inputs = .releaseReset :: rest ∧ s.resetAsserted = false ∧ waitForHost s = { s with inputs := rest }) := by
  unfold waitForHost
  cases h : s.inputs with
  | nil => simp
  | cons e rest => cases e <;> cases hr : s.resetAsserted <;> simp [hostEvent]

theorem runCommands_append (xs ys : List Word64) (s t : State) (h : runCommands xs s = .next t) :
    runCommands (xs ++ ys) s = runCommands ys t := by
  induction xs generalizing s with
  | nil => cases h; rfl
  | cons w ws ih =>
    obtain ⟨u, hu, -⟩ := acceptCommand_cases w s
    simp only [runCommands, hu, List.cons_append] at h ⊢
    exact ih u h

/-- A run over accepted words always ends in a next state (R110). -/
theorem runCommands_next (ws : List Word64) (s : State) : ∃ t, runCommands ws s = .next t := by
  induction ws generalizing s with
  | nil => exact ⟨s, rfl⟩
  | cons w ws ih =>
    obtain ⟨u, hu, -⟩ := acceptCommand_cases w s
    simpa only [runCommands, hu] using ih u

/-- A sequence of commands leaves the pins and the host's actions alone. -/
theorem runCommands_port (ws : List Word64) (s t : State) (h : runCommands ws s = .next t) :
    t.cmdValid = s.cmdValid ∧ t.cmdWord = s.cmdWord ∧ t.resetAsserted = s.resetAsserted ∧ t.inputs = s.inputs := by
  induction ws generalizing s with
  | nil => cases h; exact ⟨rfl, rfl, rfl, rfl⟩
  | cons w ws ih =>
    obtain ⟨u, hu, -⟩ := acceptCommand_cases w s
    simp only [runCommands, hu] at h
    simpa only [acceptCommand_port w s u hu] using ih u h

end Sys2Proof.Machine
end

