-- ==== Sys2Proof/Laws/PerInstr.lean ====
section
/-! SUPPORT. Statements about every command as syntax, one lemma a constructor. -/

namespace Sys2Proof.Laws.OpcodeField

/-- `OPC` of each command (R61). -/
def code : Instr → BitVec 4
  | .nop => 0x0
  | .init => 0x1
  | .append _ _ => 0x2
  | .finalize => 0x3

/-- The encoded word carries the command's operation code in `[63:60]` and 0 in the reserved bits `[59:35]` (R60, R61, R63). -/
def Statement (i : Instr) : Prop := opcField (encode i) = code i ∧ rsvField (encode i) = 0

theorem nop : Statement .nop := by simp [Statement, encode, code]
theorem init : Statement .init := by simp [Statement, encode, code]
theorem append (cnt : BitVec 3) (data : BitVec 32) : Statement (.append cnt data) := by simp [Statement, encode, code]
theorem finalize : Statement .finalize := by simp [Statement, encode, code]

end Sys2Proof.Laws.OpcodeField
end

