-- ==== Sys2Proof/Laws/Timing.lean ====
section
/-! SUPPORT. How many TRANSFORMs absorbing a string performs (R111, R117). -/

namespace Sys2Proof.Machine

theorem transformsIn_eq (s : State) (bs : List Byte) :
    transformsIn s bs = (s.bufLen.toNat + bs.length) / 64 := by
  induction bs generalizing s with
  | nil =>
    have := s.bufLen.isLt
    simp [transformsIn]; omega
  | cons b bs ih =>
    have := s.bufLen.isLt
    have e : s.bufLen = 63 ↔ s.bufLen.toNat = 63 := by rw [← BitVec.toNat_inj]; rfl
    rw [transformsIn, ih, absorb_bufLen, BitVec.toNat_add, List.length_cons]
    simp only [e, show (1 : BitVec 6).toNat = 1 from rfl]
    split <;> omega

end Sys2Proof.Machine
end

