-- ==== Sys2Proof/Tests/Slice0.lean ====
section
/-! SUPPORT. Tests of the model, their expected values from spec/95_test_vectors.md and the worked examples of the rules (the
source of each stands in its comment), and for each obligation with hypotheses a concrete state that meets them. -/

namespace Sys2Proof.Tests
open Sys2Proof Sys2Proof.Machine

/-- The state an outcome goes on in. -/
def after (o : Host.Outcome State Fault Refusal) : Option State :=
  match o with
  | .next t => some t
  | .fault _ => none
  | .refused _ => none

/-- `n` bytes `'a'` appended after reset, `n` at most 63: they are all pending. -/
def someA (n : Nat) : State :=
  { State.reset with buf := Vector.replicate 64 0x61, bufLen := BitVec.ofNat 6 n, count := BitVec.ofNat 64 n }

/-- "abc" appended after reset (vector V3). -/
def abc : State :=
  { State.reset with buf := ((((Vector.replicate 64 0).set 0 0x61).set 1 0x62).set 2 0x63), bufLen := 3, count := 3 }

/-- The state after vector V8: the empty message finalized. -/
def finalizedEmpty : State :=
  { State.reset with h := ⟨0xd98c1dd4, 0x04b2008f, 0x980980e9, 0x7e42f8ec⟩, phase := .finalized }

/-- The state after vector E7: an illegal word reported after reset. -/
def illegalLatched : State := { State.reset with err := .illegalCommand, errCmd := 0x0000000000000001 }

/-- A word presented on the port of a core out of reset. -/
def presenting (s : State) (w : Word64) : State := { s with cmdValid := true, cmdWord := w }

/-! ### The check of WellFormed -/

theorem smoke_wf_refuses_cnt_five : (Instr.append 5 0).wf = false := by decide
theorem smoke_wf_refuses_cnt_seven : (Instr.append 7 0xffffffff).wf = false := by decide
theorem smoke_wf_takes_cnt_four : (Instr.append 4 0xffffffff).wf = true := by decide

/-! ### Decoding: words written out field by field, `OPC ‖ RSV ‖ CNT ‖ DATA` (R60, R61; section 6.2) -/

theorem test_decode_nop : decode (0b0000#4 ++ 0#25 ++ 0b000#3 ++ 0#32) = .command .nop := by decide
theorem test_decode_init : decode (0b0001#4 ++ 0#25 ++ 0b000#3 ++ 0#32) = .command .init := by decide
theorem test_decode_append :
    decode (0b0010#4 ++ 0#25 ++ 0b011#3 ++ 0x00636261#32) = .command (.append 3 0x00636261) := by decide
theorem test_decode_finalize : decode (0b0011#4 ++ 0#25 ++ 0b000#3 ++ 0#32) = .command .finalize := by decide
theorem test_decode_cnt_five : decode 0x2000000500000000 = .illegal .countAboveFour := by decide
theorem test_decode_bit_35 : decode 0x2000000800000000 = .illegal .reservedBitSet := by decide
theorem test_decode_bit_59 : decode 0x2800000000000000 = .illegal .reservedBitSet := by decide
theorem test_decode_reserved_opcode : decode 0xffffffffffffffff = .illegal .reservedOpcode := by decide
theorem test_decodeTableWord : decodeTableWord 64 0x2000000300636261 = some (.append 3 0x00636261) := by decide

/-- R68 and R70. -/
theorem test_assemble_and_disassemble :
    (AsmLine.append [0x61, 0x62, 0x63]).words = some [0x2000000300636261] ∧
    disassemble 0x2000000163636261 = .append [0x61] ∧
    disassemble 0x2000000500000000 = .word 0x2000000500000000 := by decide

/-- `APPEND { 'a', 0x62, 99} ; c` (R67). -/
theorem test_parse_line :
    parseLine (['A', 'P', 'P', 'E', 'N', 'D', ' ', openBrace, ' ', apostrophe, 'a', apostrophe, ',', ' ', '0', 'x', '6', '2',
      ',', '9', '9', closeBrace, ' ', ';', ' ', 'c']) = some [.append [0x61, 0x62, 0x63]] := by decide

/-! ### The compression function -/

/-- R80's example and section 2.1. -/
theorem test_rotl32 : rotl32 0x12345678 4 = 0x23456781 ∧ rotl32 0x87654321 31 = 0xc3b2a190 ∧
    rotl32 0x12345678 0 = 0x12345678 := by decide

/-- Section 2.2, the row of three different words. -/
theorem test_mixing :
    mixF 0x12345678 0x9abcdef0 0x0fedcba9 = 0x1ffddff1 ∧ mixG 0x12345678 0x9abcdef0 0x0fedcba9 = 0x92345678 ∧
    mixH 0x12345678 0x9abcdef0 0x0fedcba9 = 0x87654321 ∧ mixI 0x12345678 0x9abcdef0 0x0fedcba9 = 0x688aa88e := by
  decide

/-- R88's table, round 0 (spec/40_compression.md). -/
def tableRound0 : List StepRow :=
  [⟨.F, 0, 7, 0xd76aa478⟩, ⟨.F, 1, 12, 0xe8c7b756⟩, ⟨.F, 2, 17, 0x242070db⟩, ⟨.F, 3, 22, 0xc1bdceee⟩,
   ⟨.F, 4, 7, 0xf57c0faf⟩, ⟨.F, 5, 12, 0x4787c62a⟩, ⟨.F, 6, 17, 0xa8304613⟩, ⟨.F, 7, 22, 0xfd469501⟩,
   ⟨.F, 8, 7, 0x698098d8⟩, ⟨.F, 9, 12, 0x8b44f7af⟩, ⟨.F, 10, 17, 0xffff5bb1⟩, ⟨.F, 11, 22, 0x895cd7be⟩,
   ⟨.F, 12, 7, 0x6b901122⟩, ⟨.F, 13, 12, 0xfd987193⟩, ⟨.F, 14, 17, 0xa679438e⟩, ⟨.F, 15, 22, 0x49b40821⟩]

/-- R88's table, round 1 (spec/40_compression.md). -/
def tableRound1 : List StepRow :=
  [⟨.G, 1, 5, 0xf61e2562⟩, ⟨.G, 6, 9, 0xc040b340⟩, ⟨.G, 11, 14, 0x265e5a51⟩, ⟨.G, 0, 20, 0xe9b6c7aa⟩,
   ⟨.G, 5, 5, 0xd62f105d⟩, ⟨.G, 10, 9, 0x02441453⟩, ⟨.G, 15, 14, 0xd8a1e681⟩, ⟨.G, 4, 20, 0xe7d3fbc8⟩,
   ⟨.G, 9, 5, 0x21e1cde6⟩, ⟨.G, 14, 9, 0xc33707d6⟩, ⟨.G, 3, 14, 0xf4d50d87⟩, ⟨.G, 8, 20, 0x455a14ed⟩,
   ⟨.G, 13, 5, 0xa9e3e905⟩, ⟨.G, 2, 9, 0xfcefa3f8⟩, ⟨.G, 7, 14, 0x676f02d9⟩, ⟨.G, 12, 20, 0x8d2a4c8a⟩]

/-- R88's table, round 2 (spec/40_compression.md). -/
def tableRound2 : List StepRow :=
  [⟨.H, 5, 4, 0xfffa3942⟩, ⟨.H, 8, 11, 0x8771f681⟩, ⟨.H, 11, 16, 0x6d9d6122⟩, ⟨.H, 14, 23, 0xfde5380c⟩,
   ⟨.H, 1, 4, 0xa4beea44⟩, ⟨.H, 4, 11, 0x4bdecfa9⟩, ⟨.H, 7, 16, 0xf6bb4b60⟩, ⟨.H, 10, 23, 0xbebfbc70⟩,
   ⟨.H, 13, 4, 0x289b7ec6⟩, ⟨.H, 0, 11, 0xeaa127fa⟩, ⟨.H, 3, 16, 0xd4ef3085⟩, ⟨.H, 6, 23, 0x04881d05⟩,
   ⟨.H, 9, 4, 0xd9d4d039⟩, ⟨.H, 12, 11, 0xe6db99e5⟩, ⟨.H, 15, 16, 0x1fa27cf8⟩, ⟨.H, 2, 23, 0xc4ac5665⟩]

/-- R88's table, round 3 (spec/40_compression.md). -/
def tableRound3 : List StepRow :=
  [⟨.I, 0, 6, 0xf4292244⟩, ⟨.I, 7, 10, 0x432aff97⟩, ⟨.I, 14, 15, 0xab9423a7⟩, ⟨.I, 5, 21, 0xfc93a039⟩,
   ⟨.I, 12, 6, 0x655b59c3⟩, ⟨.I, 3, 10, 0x8f0ccc92⟩, ⟨.I, 10, 15, 0xffeff47d⟩, ⟨.I, 1, 21, 0x85845dd1⟩,
   ⟨.I, 8, 6, 0x6fa87e4f⟩, ⟨.I, 15, 10, 0xfe2ce6e0⟩, ⟨.I, 6, 15, 0xa3014314⟩, ⟨.I, 13, 21, 0x4e0811a1⟩,
   ⟨.I, 4, 6, 0xf7537e82⟩, ⟨.I, 11, 10, 0xbd3af235⟩, ⟨.I, 2, 15, 0x2ad7d2bb⟩, ⟨.I, 9, 21, 0xeb86d391⟩]

/-- The schedule is R88's table, row by row. -/
theorem test_schedule : schedule = tableRound0 ++ tableRound1 ++ tableRound2 ++ tableRound3 := by decide

/-- The packed padding block of "abc" (section 3). -/
def abcBlock : Vector Word 16 := ((Vector.replicate 16 0).set 0 0x80636261).set 14 0x00000018

/-- R89's example: step 0. -/
theorem test_step_zero :
    mixStep abcBlock iv (stepRow 0) = ⟨0x10325476, 0xd6d117b4, 0xefcdab89, 0x98badcfe⟩ := by decide

/-- Vector T7. -/
theorem test_transform : transform iv abcBlock = ⟨0x98500190, 0xb04fd23c, 0x7d3f96d6, 0x727fe128⟩ := by decide +kernel

/-! ### The commands -/

/-- V2. -/
theorem test_nop : (after (exec .nop finalizedEmpty)).map statusBits = some 0x09 := by decide

/-- V9: the buffered bytes are dropped and nothing is compressed. -/
theorem test_init : (after (exec .init abc)).map (fun t => (t.h, t.bufLen, t.count, t.err)) = some (iv, 0, 0, .noError) := by
  decide

/-- E6: INIT clears the error. -/
theorem test_init_clears_error : (after (exec .init illegalLatched)).map (fun t => (t.err, t.errCmd)) = some (.noError, 0) := by
  decide

/-- V6: a block completed inside the command, the rest starting the next block. -/
theorem test_append_over_a_block :
    (after (exec (.append 4 0x65646362) (someA 62))).map (fun t => (t.h, pendingBytes t, t.count)) =
      some (⟨0x3043b419, 0xa33f7a7c, 0xc3aa9bfc, 0xe32c4a94⟩, [0x64, 0x65], 66) := by decide +kernel

/-- Section 5.2: `COUNT` wraps without error. -/
theorem test_append_count_wraps :
    (after (exec (.append 1 0) { someA 63 with count := 0xffffffffffffffff })).map (fun t => (t.count, t.bufLen, t.err)) =
      some (0, 0, .noError) := by decide +kernel

/-- V7: one padding block. -/
theorem test_finalize_abc :
    (after (exec .finalize abc)).map (fun t => (t.h, t.bufLen, t.count, statusBits t)) =
      some (⟨0x98500190, 0xb04fd23c, 0x7d3f96d6, 0x727fe128⟩, 0, 3, 0x09) := by decide +kernel

/-- P3: two padding blocks. -/
theorem test_finalize_two_blocks :
    (after (exec .finalize (someA 56))).map (fun t => (t.h, t.count)) =
      some (⟨0xc78a0c3b, 0xb028f803, 0x70196c4c, 0x1872d106⟩, 56) := by decide +kernel

/-- E1, E3 and E14: the misuse codes, and legality checked first. -/
theorem test_errors_in_finalized :
    (after (acceptCommand 0x2000000100000000 finalizedEmpty)).map (fun t => (statusBits t, t.errCmd)) =
      some (0x03, 0x2000000100000000) ∧
    (after (acceptCommand 0x3000000000000000 finalizedEmpty)).map (fun t => (statusBits t, t.errCmd)) =
      some (0x05, 0x3000000000000000) ∧
    (after (acceptCommand 0x2000000500000000 finalizedEmpty)).map statusBits = some 0x07 := by decide

/-- S3 on the port: byte 0 of the digest in the low bits. -/
theorem test_digest_port :
    digestOut { State.reset with h := ⟨0x98500190, 0xb04fd23c, 0x7d3f96d6, 0x727fe128⟩, phase := .finalized } =
      some 0x727fe1287d3f96d6b04fd23c98500190 := by decide

/-- The step after reset with a word on the port runs that word (V3). -/
theorem test_step_runs_the_word :
    (after (step (State.reset.withFetchWord 64 0x2000000300636261))).map (fun t => (pendingBytes t, t.cmdValid)) =
      some ([0x61, 0x62, 0x63], false) := by decide

/-! ### States that meet the hypotheses of the obligations -/

theorem witness_decodeOfEncode : (Instr.append 4 0xffffffff).wf = true ∧ Instr.nop.wf = true := by decide

theorem witness_encodeOfDecoded : decode 0x20000004ffffffff = .command (.append 4 0xffffffff) := by decide

theorem witness_legality : legal 0x2000000500000000 = false ∧ legal 0x3000000800000000 = false := by decide

theorem witness_disassembly :
    decode 0x2000000163636261 = .command (.append 1 0x63636261) ∧
    (∀ cnt data, decode 0x4000000000000000 ≠ .command (.append cnt data)) :=
  ⟨by decide, fun cnt data => by rw [show decode 0x4000000000000000 = .illegal .reservedOpcode by decide]; simp⟩

/-- Five bytes: a full command, and the rest with its unused lanes 0. -/
theorem witness_appendsExpansion :
    expandAppends [0x6d, 0x65, 0x73, 0x73, 0x61] = [.append 4 0x7373656d, .append 1 0x00000061] := by decide

theorem witness_nop_opcode_illegal : (0x0000000000000001#64).toNat / 2 ^ 60 = 0 ∧ (0x0000000000000001 : Word64) ≠ 0 := by decide

/-- Both clauses, at the boundary: 63 bytes in all, and 64. -/
theorem witness_append :
    (4#3).toNat ≤ 4 ∧ (someA 59).err = .noError ∧ (someA 59).phase = .accepting ∧
    (pendingBytes (someA 59) ++ laneBytes 4 0x65646362).length = 63 ∧
    (someA 60).err = .noError ∧ (someA 60).phase = .accepting ∧
    (pendingBytes (someA 60) ++ laneBytes 4 0x65646362).length = 64 := by decide

theorem witness_appendStores :
    (3#3).toNat ≤ 4 ∧ (someA 63).err = .noError ∧ (someA 63).phase = .accepting ∧
    (∃ c : Fin 64, ∃ j < 3, c.val = ((someA 63).bufLen.toNat + j) % 64) ∧
    (∃ c : Fin 64, ∀ j < 3, c.val ≠ ((someA 63).bufLen.toNat + j) % 64) :=
  ⟨by decide, by decide, by decide, ⟨1, 2, by decide, by decide⟩, ⟨2, by decide⟩⟩

theorem witness_alignedAppend :
    (someA 60).bufLen.toNat % 4 = 0 ∧ (someA 60).err = .noError ∧ (someA 60).phase = .accepting ∧
    (15 : Fin 16).val = (someA 60).bufLen.toNat / 4 ∧ (14 : Fin 16).val ≠ (someA 60).bufLen.toNat / 4 := by decide

theorem witness_ignoredLanes :
    (1#3).toNat ≤ 4 ∧ State.reset.phase = .accepting ∧ illegalLatched.err ≠ .noError ∧
    (∀ j < (1#3).toNat, (0x63636261#32).extractLsb' (8 * j) 8 = (0x00000061#32).extractLsb' (8 * j) 8) := by decide

/-- Both clauses, at the boundary. -/
theorem witness_finalize :
    (someA 55).err = .noError ∧ (someA 55).phase = .accepting ∧ (someA 55).bufLen.toNat = 55 ∧
    (someA 56).err = .noError ∧ (someA 56).phase = .accepting ∧ (someA 56).bufLen.toNat = 56 ∧
    (someA 56).resetAsserted = false := by decide

theorem witness_lengthFieldWraps :
    (someA 0).err = .noError ∧ (someA 0).phase = .accepting ∧
    (0#64).toNat % 2 ^ 61 = (0x2000000000000000#64).toNat % 2 ^ 61 ∧ (0#64) ≠ 0x2000000000000000#64 := by decide

theorem witness_misuse : finalizedEmpty.err = .noError ∧ finalizedEmpty.phase = .finalized ∧ (0#3).toNat ≤ 4 := by decide

theorem witness_oversizedAppend : 4 < (5#3).toNat := by decide

theorem witness_errorPoisons :
    illegalLatched.err ≠ .noError ∧ (∀ w ∈ [0x2000000300636261, (0x3000000000000000 : Word64)], decode w ≠ .command .init) :=
  ⟨by decide, List.forall_mem_cons.2 ⟨by decide, List.forall_mem_singleton.2 (by decide)⟩⟩

/-- Each command, and for APPEND and FINALIZE each state that decides what it leaves alone. -/
theorem witness_frames :
    (after (exec .nop abc)).isSome ∧ (after (exec .init abc)).isSome ∧
    (after (exec (.append 1 0) abc)).isSome ∧ abc.phase = .accepting ∧
    (after (exec (.append 1 0) finalizedEmpty)).isSome ∧ (after (exec (.append 5 0) abc)).isSome ∧
    (after (exec (.append 1 0) illegalLatched)).isSome ∧ (after (exec .finalize finalizedEmpty)).isSome ∧
    (after (exec .finalize illegalLatched)).isSome ∧ (after (exec .finalize (someA 55))).isSome := by decide +kernel

/-- Every branch of the dispatch. -/
theorem witness_dispatch :
    legal 0x0000000000000001 = false ∧ decode 0x0000000000000000 = .command .nop ∧
    decode 0x1000000000000000 = .command .init ∧ decode 0x2000000100000000 = .command (.append 1 0) ∧
    decode 0x3000000000000000 = .command .finalize ∧ abc.err = .noError ∧ abc.phase = .accepting ∧
    finalizedEmpty.phase = .finalized ∧ illegalLatched.err ≠ .noError := by decide

theorem witness_stepRuns :
    (presenting abc 0x3000000000000000).cmdValid = true ∧ (presenting abc 0x3000000000000000).resetAsserted = false ∧
    decode (presenting abc 0x3000000000000000).cmdWord = .command .finalize := by decide

theorem witness_stepReportsIllegal :
    (presenting abc 0x5000000000000000).cmdValid = true ∧ (presenting abc 0x5000000000000000).resetAsserted = false ∧
    decode (presenting abc 0x5000000000000000).cmdWord = .illegal .reservedOpcode ∧
    (presenting abc 0x5000000000000000).err = .noError ∧ (presenting illegalLatched 0x5000000000000000).err ≠ .noError := by
  decide

/-- A core held in reset with a word on its port, the host about to release it. -/
def heldInReset : State :=
  { presenting abc 0x3000000000000000 with resetAsserted := true, inputs := [.releaseReset] }

theorem witness_noCommandStep :
    State.reset.cmdValid = false ∧ State.reset.inputs.head? ≠ some .releaseReset ∧
    heldInReset.resetAsserted = true ∧ heldInReset.inputs.head? = some .releaseReset := by decide

theorem witness_nothingAcceptedInReset : heldInReset.resetAsserted = true ∧ heldInReset.cmdValid = true := by decide

theorem witness_withdrawn :
    ({ heldInReset with inputs := [.withdraw] } : State).resetAsserted = true ∧
    ({ heldInReset with inputs := [.withdraw] } : State).cmdValid = true ∧
    ({ heldInReset with inputs := [.withdraw] } : State).inputs = [.withdraw] := by decide

theorem witness_run :
    ({ State.reset with inputs := [0x2000000300636261, 0x3000000000000000].map .present } : State).cmdValid = false ∧
    ({ State.reset with inputs := [0x2000000300636261, 0x3000000000000000].map .present } : State).resetAsserted = false := by
  decide

/-- Every writer of the phase, and a change of it: INIT, reset, FINALIZE. -/
theorem witness_phaseWriters :
    (after (step (presenting finalizedEmpty 0x1000000000000000))).map (·.phase) = some .accepting ∧
    (after (step { finalizedEmpty with resetAsserted := true, inputs := [.releaseReset] })).map (·.phase) = some .accepting ∧
    (after (step (presenting abc 0x3000000000000000))).map (·.phase) = some .finalized := by decide +kernel

/-- A latched error, and one cleared by INIT and by reset. -/
theorem witness_errorLatchWriters :
    (after (step (presenting abc 0x5000000000000000))).map (·.err) = some .illegalCommand ∧
    (after (step (presenting illegalLatched 0x1000000000000000))).map (·.err) = some .noError ∧
    (after (step { illegalLatched with resetAsserted := true, inputs := [.releaseReset] })).map (·.err) = some .noError := by
  decide

theorem witness_countWriters :
    (after (step (presenting abc 0x2000000100000064))).map (·.count) = some 4 ∧
    (after (step (presenting abc 0x1000000000000000))).map (·.count) = some 0 ∧
    (after (step { abc with resetAsserted := true, inputs := [.releaseReset] })).map (·.count) = some 0 := by decide

/-- A changed chaining state by INIT, by reset, by an APPEND, and by a FINALIZE on each side of the boundary. -/
theorem witness_chainingStateWriters :
    (after (step (presenting finalizedEmpty 0x1000000000000000))).map (decide <| ·.h = finalizedEmpty.h) = some false ∧
    (after (step { finalizedEmpty with resetAsserted := true, inputs := [.releaseReset] })).map
      (decide <| ·.h = finalizedEmpty.h) = some false ∧
    (after (step (presenting (someA 62) 0x2000000465646362))).map (decide <| ·.h = iv) = some false ∧
    (after (step (presenting (someA 55) 0x3000000000000000))).map (decide <| ·.h = iv) = some false ∧
    (after (step (presenting (someA 56) 0x3000000000000000))).map (decide <| ·.h = iv) = some false := by decide +kernel

theorem inv_finalizedEmpty : finalizedEmpty.Inv := by
  constructor <;> simp [finalizedEmpty, State.reset, errCmdExplains]

theorem inv_abc : abc.Inv := by
  constructor <;> simp [abc, State.reset, errCmdExplains]

theorem inv_illegalLatched : illegalLatched.Inv := by
  constructor <;> simp [illegalLatched, State.reset, errCmdExplains]
  exact ⟨.reservedBitSet, by decide⟩

theorem witness_stepKeepsInvariant :
    (presenting abc 0x3000000000000000).Inv ∧ (after (step (presenting abc 0x3000000000000000))).isSome = true :=
  ⟨⟨inv_abc.1, inv_abc.2, inv_abc.3, inv_abc.4⟩, by decide +kernel⟩

theorem witness_status : finalizedEmpty.Inv ∧ illegalLatched.Inv := ⟨inv_finalizedEmpty, inv_illegalLatched⟩

theorem witness_runFromReset :
    (after (runCommands [0x2000000300636261] State.reset)).map (fun t => (t.phase, t.err, t.count)) =
      some (.accepting, .noError, 3) := by decide

/-- Both clauses: no error after a NOP, and an error after a misuse. -/
theorem witness_digestStays :
    finalizedEmpty.phase = .finalized ∧ finalizedEmpty.err = .noError ∧ finalizedEmpty.resetAsserted = false ∧
    (∀ w ∈ [0x0000000000000000, (0x2000000100000000 : Word64)], decode w ≠ .command .init) ∧
    (after (runCommands [0x0000000000000000] finalizedEmpty)).map (·.err) = some .noError ∧
    (after (runCommands [0x2000000100000000] finalizedEmpty)).map (·.err) = some .appendAfterFinalize :=
  ⟨by decide, by decide, by decide, List.forall_mem_cons.2 ⟨by decide, List.forall_mem_singleton.2 (by decide)⟩, by decide, by decide⟩

/-- Two states that differ in a stale cell. -/
theorem witness_staleCells :
    abc.AgreeRead { abc with buf := abc.buf.set 63 0xff } ∧ abc ≠ { abc with buf := abc.buf.set 63 0xff } :=
  ⟨⟨rfl, rfl, by decide, rfl, rfl, rfl, rfl, rfl, rfl, rfl, rfl⟩, by decide⟩

/-- P7 and P1: "abc" in two ways. -/
theorem witness_streaming :
    (∀ c ∈ [(1, 0x61), (0, 0), (2, 0x6362)], (c : BitVec 3 × BitVec 32).1.toNat ≤ 4) ∧
    (∀ c ∈ [(3, 0x636261)], (c : BitVec 3 × BitVec 32).1.toNat ≤ 4) ∧
    carriedBytes [(1, 0x61), (0, 0), (2, 0x6362)] = carriedBytes [(3, 0x636261)] ∧ abc.resetAsserted = false := by
  refine ⟨?_, ?_, by decide, by decide⟩ <;> intro c hc <;> simp only [List.mem_cons, List.not_mem_nil, or_false] at hc
  · obtain rfl | rfl | rfl := hc <;> decide
  · subst hc; decide

theorem witness_digestPseudo : abc.resetAsserted = false := by decide

theorem witness_resetAndInit : heldInReset.resetAsserted = true ∧ heldInReset.inputs = [.releaseReset] := by decide

theorem witness_digestBytes :
    finalizedEmpty.resetAsserted = false ∧ dvalid finalizedEmpty = true ∧ dvalid abc = false ∧ (3 : Nat) < 4 := by decide

theorem witness_bitIndex : (31 : Nat) < 32 ∧ (32 : Nat) % 32 = 0 := by decide

/-- The bounds of the round, index and step statements, at their last values. -/
theorem witness_rounds : (3 : Nat) < 4 ∧ (15 : Nat) < 16 ∧ (63 : Nat) < 64 := by decide

theorem witness_padding : (63 : Nat) < 64 ∧ (0 : Nat) < padZeros 54 := by decide

/-- Each clause: an APPEND on both sides of a block's end, a FINALIZE on both sides of 55, a poisoned word, the others. -/
theorem witness_transforms :
    decode 0x2000000400000000 = .command (.append 4 0) ∧ commandTransforms 0x2000000400000000 (someA 59) = 0 ∧
    commandTransforms 0x2000000400000000 (someA 60) = 1 ∧ decode 0x3000000000000000 = .command .finalize ∧
    (someA 55).err = .noError ∧ (someA 55).phase = .accepting ∧ (someA 55).bufLen.toNat = 55 ∧
    (someA 56).bufLen.toNat = 56 ∧ illegalLatched.err ≠ .noError ∧ decode 0 = .command .nop := by decide +kernel

/-- A core just past an accepted FINALIZE, and no edge yet. -/
theorem witness_busy : ∃ d, acceptAtEdge 0x3000000000000000 { Clocked.reset with core := abc, busy := 0 } = .next d ∧
    ([] : List Edge).length < Config.latCmd + commandTransforms 0x3000000000000000 abc * Config.latBlock := by
  refine ⟨_, rfl, ?_⟩
  unfold Config.latCmd
  simp only [List.length_nil]
  omega

/-- A clocked core that has accepted one word. -/
theorem witness_clockRefines :
    runCommands [0x2000000300636261] State.reset = .next abc := rfl

theorem witness_resetAtEdge : (⟨true, true, 0⟩ : Edge).reset = true := by decide

theorem witness_instances : (0 : Fin 2) ≠ 1 ∧
    (∃ q, Platform.stepAt (0 : Fin 2) (Platform.reset 2) = .next q ∧ ∃ r, Platform.stepAt (1 : Fin 2) q = .next r) :=
  ⟨by decide, _, rfl, _, rfl⟩

end Sys2Proof.Tests
end

section
/-! SUPPORT. What the commands that execute leave in each register, and which words spell INIT, FINALIZE and an APPEND: the
field lemmas the claims about state changes cite. -/

namespace Sys2Proof.Machine

section AppendBytesFields
variable (s : State) (bs : List Byte)
@[simp] theorem appendBytes_h : (appendBytes s bs).h = (absorbAll s bs).h := by rw [appendBytes_eq]
theorem appendBytes_bufLen : (appendBytes s bs).bufLen = s.bufLen + BitVec.ofNat 6 bs.length := by
  rw [appendBytes_eq]; exact absorbAll_bufLen s bs
theorem appendBytes_count : (appendBytes s bs).count = s.count + BitVec.ofNat 64 bs.length := by rw [appendBytes_eq]
@[simp] theorem appendBytes_phase : (appendBytes s bs).phase = s.phase := by simp [appendBytes_eq]
@[simp] theorem appendBytes_err : (appendBytes s bs).err = s.err := by simp [appendBytes_eq]
@[simp] theorem appendBytes_errCmd : (appendBytes s bs).errCmd = s.errCmd := by simp [appendBytes_eq]
end AppendBytesFields

section PadAndFinalizeFields
variable (s : State)
@[simp] theorem padAndFinalize_h :
    (padAndFinalize s).h = (absorbAll s (pad s.bufLen.toNat (bitLength s.count))).h := rfl
@[simp] theorem padAndFinalize_bufLen : (padAndFinalize s).bufLen = 0 := absorbAll_pad_bufLen s _
@[simp] theorem padAndFinalize_count : (padAndFinalize s).count = s.count := absorbAll_count s _
@[simp] theorem padAndFinalize_phase : (padAndFinalize s).phase = .finalized := rfl
@[simp] theorem padAndFinalize_err : (padAndFinalize s).err = s.err := absorbAll_err s _
@[simp] theorem padAndFinalize_errCmd : (padAndFinalize s).errCmd = s.errCmd := absorbAll_errCmd s _
end PadAndFinalizeFields

theorem raiseError_samePort (code : ErrCode) (w : Word64) (s : State) : s.SamePort (raiseError code w s) := by
  simp [State.SamePort]

theorem appendBytes_samePort (s : State) (bs : List Byte) : s.SamePort (appendBytes s bs) := by
  simp [State.SamePort, appendBytes_eq]

theorem padAndFinalize_samePort (s : State) : s.SamePort (padAndFinalize s) := by
  simp [State.SamePort, padAndFinalize]

/-- `BUFLEN` after an executed APPEND, as a number (R23). -/
theorem appendBytes_bufLen_toNat (s : State) (bs : List Byte) :
    (appendBytes s bs).bufLen.toNat = (s.bufLen.toNat + bs.length) % 64 := by
  simp [appendBytes_bufLen, BitVec.toNat_add]

/-- `COUNT` after an executed APPEND, as a number (R24). -/
theorem appendBytes_count_toNat (s : State) (bs : List Byte) :
    (appendBytes s bs).count.toNat = (s.count.toNat + bs.length) % 2 ^ 64 := by
  simp [appendBytes_count, BitVec.toNat_add]

/-- The bit length of R115 as a number taken modulo 2^64. -/
theorem bitLength_eq_ofNat (count : Word64) : bitLength count = BitVec.ofNat 64 (count.toNat * 8) := by
  apply BitVec.eq_of_toNat_eq
  simp [bitLength, BitVec.toNat_mul]

/-- The pending bytes with their padding fill one block up to `BUFLEN` 55 and two from 56 on (R117). -/
theorem padded_length (s : State) (v : Word64) :
    (pendingBytes s ++ pad s.bufLen.toNat v).length = if s.bufLen.toNat ≤ 55 then 64 else 128 := by
  have := s.bufLen.isLt
  rw [List.length_append, pendingBytes_length, pad_length, padZeros]
  split <;> omega

/-- INIT has one spelling (R63, R113). -/
theorem cmdWord_of_decode_init {w : Word64} (h : decode w = .command .init) : w = 0x1000000000000000 := by
  rcases decode_cases w with ⟨h', -, -⟩ | ⟨-, ho, hb⟩ | ⟨h', -, -, -⟩ | ⟨h', -, -⟩ | ⟨_, h'⟩
  case inr.inl =>
    obtain ⟨hr, hc, hd⟩ := (belowOpc_eq_zero_iff w).1 hb
    rw [← commandWord_fields w, ho, hr, hc, hd]
    rfl
  all_goals simp [h'] at h

/-- A decoded APPEND carries at most four bytes (R63). -/
theorem cnt_le_of_decode_append {w : Word64} {cnt : BitVec 3} {data : BitVec 32}
    (h : decode w = .command (.append cnt data)) : cnt.toNat ≤ 4 := by
  rcases decode_cases w with ⟨h', -, -⟩ | ⟨h', -, -⟩ | ⟨h', -, -, hc⟩ | ⟨h', -, -⟩ | ⟨_, h'⟩
  case inr.inr.inl =>
    rw [h] at h'
    cases h'
    exact hc
  all_goals simp [h'] at h

/-- A word that spells a command runs it. -/
theorem acceptCommand_of_decode {w : Word64} {i : Instr} (h : decode w = .command i) (s : State) :
    acceptCommand w s = exec i s := by
  unfold acceptCommand; rw [h]

/-- A word that spells no command is reported (R64). -/
theorem acceptCommand_of_illegal {w : Word64} {why : IllegalWhy} (h : decode w = .illegal why) (s : State) :
    acceptCommand w s = .next (raiseError .illegalCommand w s) := by
  unfold acceptCommand; rw [h]

end Sys2Proof.Machine
end

section
/-! SUPPORT. Everything a step can change, said once, with the cause of each change: every claim about who writes a
register is a case analysis of it. -/

namespace Sys2Proof.Machine

/-- What accepting the word `w` in the state `s` can make of it (R110, R141, R146). -/
inductive CommandEffect (w : Word64) (s : State) : State → Prop where
  /-- NOP, or a word discarded while an error is latched. -/
  | unchanged (noEffect : decode w = .command .nop ∨ s.err ≠ .noError) : CommandEffect w s s
  | started (spelled : w = 0x1000000000000000) : CommandEffect w s (startMessage s)
  | appended (cnt : BitVec 3) (data : BitVec 32) (decoded : decode w = .command (.append cnt data))
      (noError : s.err = .noError) (accepting : s.phase = .accepting) :
      CommandEffect w s (appendBytes s (laneBytes cnt data))
  | finalized (spelled : w = 0x3000000000000000) (noError : s.err = .noError) (accepting : s.phase = .accepting) :
      CommandEffect w s (padAndFinalize s)
  /-- The first error: a cause that `w` explains, and a misuse in Finalized only (R140). -/
  | raised (code : ErrCode) (noError : s.err = .noError) (isCause : code ≠ .noError)
      (misuse : code ≠ .illegalCommand → s.phase = .finalized)
      (explained : errCmdExplains { s with err := code, errCmd := w }) :
      CommandEffect w s { s with err := code, errCmd := w }

theorem acceptCommand_effect {w : Word64} {s t : State} (h : acceptCommand w s = .next t) : CommandEffect w s t := by
  obtain ⟨u, hu, hcases⟩ := acceptCommand_cases w s
  rw [hu] at h
  cases h
  rcases hcases with ⟨hd, rfl⟩ | ⟨hd, rfl⟩ | ⟨cnt, data, hd, -, -, rfl⟩ | ⟨hd, hw, rfl⟩ | ⟨why, hd, rfl⟩
  · exact .unchanged (.inl hd)
  · exact .started (cmdWord_of_decode_init hd)
  · rcases whenAccepting_cases .appendAfterFinalize w (appendBytes · (laneBytes cnt data)) s with
      ⟨he, h⟩ | ⟨he, hp, h⟩ | ⟨he, hp, h⟩ <;> rw [h]
    · exact .unchanged (.inr he)
    · exact .raised _ he (by decide) (fun _ => hp) ⟨cnt, data, hd⟩
    · exact .appended cnt data hd he hp
  · rcases whenAccepting_cases .finalizeAfterFinalize w padAndFinalize s with
      ⟨he, h⟩ | ⟨he, hp, h⟩ | ⟨he, hp, h⟩ <;> rw [h]
    · exact .unchanged (.inr he)
    · exact .raised _ he (by decide) (fun _ => hp) hd
    · exact .finalized hw.symm he hp
  · rcases raiseError_cases .illegalCommand w s with ⟨he, h⟩ | ⟨he, h⟩ <;> rw [h]
    · exact .raised _ he (by decide) (fun hne => absurd rfl hne) ⟨why, hd⟩
    · exact .unchanged (.inr he)

/-- The host releases an asserted reset at this step (R160). -/
def releasesReset (s : State) : Prop :=
  accepts s = false ∧ s.inputs.head? = some .releaseReset ∧ s.resetAsserted = true

/-- What a step can make of the state `s`: the effect of the accepted word, a change of the pins alone, or the reset
values. -/
inductive StepEffect (s : State) : State → Prop where
  | command {t : State} (accepted : accepts s = true) (effect : CommandEffect s.cmdWord (takeWord s) t) : StepEffect s t
  | portOnly (waiting : accepts s = false) (v : Bool) (w : Word64) (r : Bool) (ins : List HostEvent) :
      StepEffect s { s with cmdValid := v, cmdWord := w, resetAsserted := r, inputs := ins }
  | reset (rest : List HostEvent) (released : releasesReset s) : StepEffect s (resetRegisters { s with inputs := rest })

theorem step_effect {s t : State} (h : step s = .next t) : StepEffect s t := by
  rcases step_cases s with ⟨ha, hs⟩ | ⟨ha, hs⟩
  · exact .command ha (acceptCommand_effect (hs.symm.trans h))
  · rw [hs] at h
    cases h
    rcases waitForHost_cases s with
      ⟨-, h⟩ | ⟨w, rest, -, h⟩ | ⟨rest, -, h⟩ | ⟨rest, -, h⟩ | ⟨rest, hi, hr, h⟩ | ⟨rest, -, -, h⟩ <;> rw [h]
    · exact .portOnly ha s.cmdValid s.cmdWord s.resetAsserted s.inputs
    · exact .portOnly ha true w s.resetAsserted rest
    · exact .portOnly ha false s.cmdWord s.resetAsserted rest
    · exact .portOnly ha s.cmdValid s.cmdWord true rest
    · exact .reset rest ⟨ha, by simp [hi], hr⟩
    · exact .portOnly ha s.cmdValid s.cmdWord s.resetAsserted rest

section StepEquations
variable {s : State}

/-- A step that accepts the word of INIT (R113). -/
theorem step_init (ha : accepts s = true) (hw : s.cmdWord = 0x1000000000000000) :
    step s = .next (startMessage (takeWord s)) := by
  have hd : decode s.cmdWord = .command .init := by rw [hw]; decide
  simp [step, ha, acceptCommand_of_decode hd]

/-- A step that accepts an APPEND that executes (R114). -/
theorem step_append {cnt : BitVec 3} {data : BitVec 32} (ha : accepts s = true)
    (hd : decode s.cmdWord = .command (.append cnt data)) (he : s.err = .noError) (hp : s.phase = .accepting) :
    step s = .next (appendBytes (takeWord s) (laneBytes cnt data)) := by
  rw [appendBytes_eq, laneBytes_length]
  simpa [step, ha, acceptCommand_of_decode hd] using
    exec_append_accepting cnt data (takeWord s) (cnt_le_of_decode_append hd) he hp

/-- A step that accepts a FINALIZE that executes (R115). -/
theorem step_finalize (ha : accepts s = true) (hw : s.cmdWord = 0x3000000000000000) (he : s.err = .noError)
    (hp : s.phase = .accepting) : step s = .next (padAndFinalize (takeWord s)) := by
  have hd : decode s.cmdWord = .command .finalize := by rw [hw]; decide
  simpa [step, ha, acceptCommand_of_decode hd] using exec_finalize_accepting (takeWord s) he hp

/-- A step in which reset is released (R160). -/
theorem step_releaseReset (h : releasesReset s) :
    ∃ rest, step s = .next (resetRegisters { s with inputs := rest }) := by
  obtain ⟨ha, hi, hr⟩ := h
  obtain ⟨rest, hrest⟩ := List.head?_eq_some_iff.1 hi
  exact ⟨rest, by simp [step, ha, waitForHost, hrest, hostEvent, hr]⟩

end StepEquations

end Sys2Proof.Machine
end

section
/-! PROOFS. The invariant of the registers: every accepted word and every action of the host keep it. -/

namespace Sys2Proof.Machine

/-- The invariant says nothing of the pins. -/
theorem inv_withPort {s : State} (hs : s.Inv) (v : Bool) (w : Word64) (r : Bool) (ins : List HostEvent) :
    State.Inv { s with cmdValid := v, cmdWord := w, resetAsserted := r, inputs := ins } :=
  ⟨hs.bufLen_accepting, hs.bufLen_finalized, hs.misuse_finalized, hs.errCmd_explains⟩

/-- The values INIT and reset load meet the invariant. -/
theorem inv_of_newMessage {s : State} (hb : s.bufLen = 0) (hc : s.count = 0)
    (he : s.err = .noError) (hw : s.errCmd = 0) : s.Inv where
  bufLen_accepting _ := by simp [hb, hc]
  bufLen_finalized _ := hb
  misuse_finalized h := by simp [he] at h
  errCmd_explains := by simp [errCmdExplains, he, hw]

theorem inv_appendBytes {s : State} (hs : s.Inv) (hp : s.phase = .accepting) (bs : List Byte) :
    (appendBytes s bs).Inv where
  bufLen_accepting _ := by
    have := hs.bufLen_accepting hp
    rw [appendBytes_bufLen_toNat, appendBytes_count_toNat]
    omega
  bufLen_finalized h := by simp [hp] at h
  misuse_finalized h := by simpa using hs.misuse_finalized (by simpa using h)
  errCmd_explains := by simpa [errCmdExplains] using hs.errCmd_explains

theorem inv_padAndFinalize {s : State} (hs : s.Inv) : (padAndFinalize s).Inv where
  bufLen_accepting h := by simp at h
  bufLen_finalized _ := padAndFinalize_bufLen s
  misuse_finalized _ := rfl
  errCmd_explains := by simpa [errCmdExplains] using hs.errCmd_explains

theorem commandEffect_inv {w : Word64} {s t : State} (h : CommandEffect w s t) (hs : s.Inv) : t.Inv := by
  cases h with
  | unchanged => exact hs
  | started => exact inv_of_newMessage rfl rfl rfl rfl
  | appended cnt data _ _ hp => exact inv_appendBytes hs hp _
  | finalized => exact inv_padAndFinalize hs
  | raised code _ _ misuse explained =>
    exact ⟨hs.bufLen_accepting, hs.bufLen_finalized, fun h => misuse (by rcases h with rfl | rfl <;> decide), explained⟩

theorem reset_inv : State.reset.Inv := inv_of_newMessage rfl rfl rfl rfl

/-- The invariant holds after any words, from every state that has it. -/
theorem runCommands_inv (ws : List Word64) {s t : State} (h : runCommands ws s = .next t) (hs : s.Inv) : t.Inv := by
  induction ws generalizing s with
  | nil => cases h; exact hs
  | cons w ws ih =>
    obtain ⟨u, hu, -⟩ := acceptCommand_cases w s
    simp only [runCommands, hu] at h
    exact ih h (commandEffect_inv (acceptCommand_effect hu) hs)

/-- Settles O35, by the effects a step can have. -/
theorem stepKeepsRegisterInvariant : Obligations.StepKeepsRegisterInvariant := by
  intro s t hs h
  cases step_effect h with
  | command _ effect => exact commandEffect_inv effect (inv_withPort hs false s.cmdWord s.resetAsserted s.inputs)
  | portOnly _ v w r ins => exact inv_withPort hs v w r ins
  | reset => exact inv_of_newMessage rfl rfl rfl rfl

/-- Settles O34. -/
theorem registerInvariantAtReset : Obligations.RegisterInvariantAtReset := reset_inv

/-- Settles O37: the invariant explains `ERRCMD`, and no word asserts reset. -/
theorem errCmdOutput : Obligations.ErrCmdOutput := by
  intro ws t h
  obtain ⟨-, -, hr, -⟩ := runCommands_port ws _ t h
  have hout : errCmdOut t = some t.errCmd := by simp [errCmdOut, cmdReady, hr, State.reset]
  refine ⟨hout, fun he => ?_⟩
  have hexp := (runCommands_inv ws h reset_inv).errCmd_explains
  simp only [errCmdExplains, he] at hexp
  rw [hout, hexp]

end Sys2Proof.Machine
end

section
/-! PROOFS. No rule reads a stale cell of `BUF` (R22): each shared operation keeps the agreement of two states on everything
else. -/

namespace Sys2Proof.Machine

section Operations
variable {s s' : State} (hs : s.AgreeRead s')
include hs

/-- With 63 bytes pending, one more makes the buffers equal: no cell is stale. -/
theorem agreeRead_fullBuffer (b : Byte) (h : s.bufLen = 63) :
    s.buf.set s.bufLen.toNat b s.bufLen.isLt = s'.buf.set s'.bufLen.toNat b s'.bufLen.isLt := by
  have h63 : s.bufLen.toNat = 63 := by rw [h]; rfl
  have h63' : s'.bufLen.toNat = 63 := by rw [← hs.bufLen]; exact h63
  refine Vector.ext fun j hj => ?_
  rw [Vector.getElem_set, Vector.getElem_set, h63, h63']
  split
  next => rfl
  next hne => exact hs.pending ⟨j, hj⟩ (show j < s.bufLen.toNat by omega)

theorem absorb_agreeRead (b : Byte) : (absorb s b).AgreeRead (absorb s' b) where
  h := by
    rw [absorb_h, absorb_h, ← hs.bufLen]
    split
    next h =>
      have := agreeRead_fullBuffer hs b h
      simp only [← hs.bufLen] at this
      rw [this, hs.h]
    next => exact hs.h
  bufLen := by rw [absorb_bufLen, absorb_bufLen, hs.bufLen]
  pending j hj := by
    have hlt := s.bufLen.isLt
    have hsucc : (absorb s b).bufLen.toNat = (s.bufLen.toNat + 1) % 64 := by simp [absorb_bufLen, BitVec.toNat_add]
    simp only [absorb_buf, Fin.getElem_fin, Vector.getElem_set, ← hs.bufLen]
    split
    next => rfl
    next hne => exact hs.pending j (by omega)
  count := by simp [hs.count]
  phase := by simp [hs.phase]
  err := by simp [hs.err]
  errCmd := by simp [hs.errCmd]
  cmdValid := by simp [hs.cmdValid]
  cmdWord := by simp [hs.cmdWord]
  resetAsserted := by simp [hs.resetAsserted]
  inputs := by simp [hs.inputs]

theorem absorbAll_agreeRead (bs : List Byte) : (absorbAll s bs).AgreeRead (absorbAll s' bs) := by
  induction bs generalizing s s' with
  | nil => exact hs
  | cons b bs ih => exact ih (absorb_agreeRead hs b)

theorem appendBytes_agreeRead (bs : List Byte) : (appendBytes s bs).AgreeRead (appendBytes s' bs) := by
  rw [appendBytes_eq, appendBytes_eq, hs.count]
  exact { absorbAll_agreeRead hs bs with count := rfl }

theorem padAndFinalize_agreeRead : (padAndFinalize s).AgreeRead (padAndFinalize s') := by
  unfold padAndFinalize
  rw [hs.bufLen, hs.count]
  exact { absorbAll_agreeRead hs _ with phase := rfl }

theorem takeWord_agreeRead : (takeWord s).AgreeRead (takeWord s') := { hs with cmdValid := rfl }

theorem startMessage_agreeRead : (startMessage s).AgreeRead (startMessage s') :=
  { hs with
    h := rfl, bufLen := rfl, pending := fun j hj => absurd hj (Nat.not_lt_zero j), count := rfl, phase := rfl, err := rfl,
    errCmd := rfl }

theorem raiseError_agreeRead (code : ErrCode) (w : Word64) :
    (raiseError code w s).AgreeRead (raiseError code w s') := by
  by_cases he : s.err = .noError
  · rw [raiseError_first code w s he, raiseError_first code w s' (hs.err ▸ he)]
    exact { hs with err := rfl, errCmd := rfl }
  · rw [raiseError_later code w s he, raiseError_later code w s' (hs.err ▸ he)]
    exact hs

theorem whenAccepting_agreeRead (misuse : ErrCode) (w : Word64) (effect : State → State)
    (heffect : (effect s).AgreeRead (effect s')) :
    (whenAccepting misuse w effect s).AgreeRead (whenAccepting misuse w effect s') := by
  unfold whenAccepting
  rw [← hs.err, ← hs.phase]
  split
  · exact hs
  · cases s.phase with
    | finalized => exact raiseError_agreeRead hs misuse w
    | accepting => exact heffect

theorem acceptCommand_agreeRead (w : Word64) :
    ∃ t t', acceptCommand w s = .next t ∧ acceptCommand w s' = .next t' ∧ t.AgreeRead t' := by
  cases hd : decode w with
  | illegal why =>
    exact ⟨_, _, acceptCommand_of_illegal hd s, acceptCommand_of_illegal hd s', raiseError_agreeRead hs _ w⟩
  | command i =>
    rw [acceptCommand_of_decode hd, acceptCommand_of_decode hd]
    cases i with
    | nop => exact ⟨s, s', rfl, rfl, hs⟩
    | init => exact ⟨_, _, rfl, rfl, startMessage_agreeRead hs⟩
    | append cnt data =>
      have hc := cnt_le_of_decode_append hd
      exact ⟨_, _, exec_append cnt data s hc, exec_append cnt data s' hc,
        whenAccepting_agreeRead hs _ _ _ (appendBytes_agreeRead hs _)⟩
    | finalize =>
      exact ⟨_, _, exec_finalize s, exec_finalize s', whenAccepting_agreeRead hs _ _ _ (padAndFinalize_agreeRead hs)⟩

theorem hostEvent_agreeRead (e : HostEvent) : (hostEvent e s).AgreeRead (hostEvent e s') := by
  cases e with
  | present w => exact { hs with cmdValid := rfl, cmdWord := rfl }
  | withdraw => exact { hs with cmdValid := rfl }
  | assertReset => exact { hs with resetAsserted := rfl }
  | releaseReset =>
    unfold hostEvent
    dsimp only
    rw [← hs.resetAsserted]
    split
    · exact ⟨rfl, rfl, fun _ _ => rfl, rfl, rfl, rfl, rfl, hs.cmdValid, hs.cmdWord, rfl, hs.inputs⟩
    · exact hs

theorem waitForHost_agreeRead : (waitForHost s).AgreeRead (waitForHost s') := by
  unfold waitForHost
  rw [← hs.inputs]
  cases s.inputs with
  | nil => exact hs
  | cons e rest =>
    have hrest : State.AgreeRead { s with inputs := rest } { s' with inputs := rest } := { hs with inputs := rfl }
    exact hostEvent_agreeRead hrest e

theorem step_agreeRead : ∃ t t', step s = .next t ∧ step s' = .next t' ∧ t.AgreeRead t' := by
  have ha : accepts s' = accepts s := by simp [accepts, cmdReady, hs.cmdValid, hs.resetAsserted]
  unfold step
  rw [ha, ← hs.cmdWord]
  split
  · exact acceptCommand_agreeRead (takeWord_agreeRead hs) s.cmdWord
  · exact ⟨_, _, rfl, rfl, waitForHost_agreeRead hs⟩

end Operations

/-- Settles O40: the outputs read no cell of `BUF`, and every operation of a step keeps the agreement. -/
theorem staleCellsAreNeverRead : Obligations.StaleCellsAreNeverRead := by
  intro s s' hs
  refine ⟨?_, ?_, ?_, step_agreeRead hs⟩
  · simp [statusOut, statusBits, dvalid, cmdReady, hs.resetAsserted, hs.phase, hs.err]
  · simp [errCmdOut, cmdReady, hs.resetAsserted, hs.errCmd]
  · simp [digestOut, dvalid, cmdReady, hs.resetAsserted, hs.phase, hs.err, hs.h]

end Sys2Proof.Machine
end

section
/-! PROOFS. What each command leaves alone (R33, R141, R143). -/

namespace Sys2Proof.Machine

/-- An APPEND term with `CNT` above 4 acts as the illegal word it encodes to (R114, R144). -/
theorem exec_append_oversized (cnt : BitVec 3) (data : BitVec 32) (s : State) (hc : 4 < cnt.toNat) :
    exec (.append cnt data) s = .next (raiseError .illegalCommand (encode (.append cnt data)) s) := by
  simp [exec, execAppend, Nat.not_le.2 hc]

theorem whenAccepting_samePort (misuse : ErrCode) (w : Word64) (effect : State → State) (s : State)
    (heffect : s.SamePort (effect s)) : s.SamePort (whenAccepting misuse w effect s) := by
  rcases whenAccepting_cases misuse w effect s with ⟨-, h⟩ | ⟨-, -, h⟩ | ⟨-, -, h⟩ <;> rw [h]
  · exact ⟨rfl, rfl, rfl, rfl⟩
  · exact ⟨rfl, rfl, rfl, rfl⟩
  · exact heffect

/-- No command writes the pins, an APPEND term with `CNT` above 4 included. -/
theorem exec_samePort {i : Instr} {s t : State} (h : exec i s = .next t) : s.SamePort t := by
  cases i with
  | nop => cases h; exact ⟨rfl, rfl, rfl, rfl⟩
  | init => cases h; exact ⟨rfl, rfl, rfl, rfl⟩
  | append cnt data =>
    rcases Nat.lt_or_ge 4 cnt.toNat with hc | hc
    · rw [exec_append_oversized cnt data s hc] at h
      cases h
      exact raiseError_samePort _ _ s
    · rw [exec_append cnt data s hc] at h
      cases h
      exact whenAccepting_samePort _ _ _ s (appendBytes_samePort s _)
  | finalize =>
    cases h
    exact whenAccepting_samePort _ _ _ s (padAndFinalize_samePort s)

theorem exec_append_frame {cnt : BitVec 3} {data : BitVec 32} {s t : State} (h : exec (.append cnt data) s = .next t) :
    t.phase = s.phase ∧
    (s.err ≠ .noError ∨ s.phase = .finalized ∨ 4 < cnt.toNat →
      t.h = s.h ∧ t.buf = s.buf ∧ t.bufLen = s.bufLen ∧ t.count = s.count) ∧
    (s.err ≠ .noError ∨ (s.phase = .accepting ∧ cnt.toNat ≤ 4) → t.err = s.err ∧ t.errCmd = s.errCmd) := by
  rcases Nat.lt_or_ge 4 cnt.toNat with hc | hc
  · rw [exec_append_oversized cnt data s hc] at h
    cases h
    refine ⟨by simp, fun _ => by simp, fun hkept => ?_⟩
    have he : s.err ≠ .noError := hkept.resolve_right fun ⟨_, hle⟩ => absurd hle (Nat.not_le.2 hc)
    rw [raiseError_later _ _ s he]
    exact ⟨rfl, rfl⟩
  · rw [exec_append cnt data s hc] at h
    cases h
    rcases whenAccepting_cases .appendAfterFinalize (encode (.append cnt data)) (appendBytes · (laneBytes cnt data)) s with
      ⟨-, h⟩ | ⟨he, hp, h⟩ | ⟨he, hp, h⟩ <;> rw [h]
    · exact ⟨rfl, fun _ => ⟨rfl, rfl, rfl, rfl⟩, fun _ => ⟨rfl, rfl⟩⟩
    · exact ⟨rfl, fun _ => ⟨rfl, rfl, rfl, rfl⟩, by simp [he, hp]⟩
    · exact ⟨by simp, by simp [he, hp, hc], by simp⟩

/-- Where one padding block suffices, the padding is stored from `BUFLEN` to the end of the buffer. -/
theorem padAndFinalize_keepsPending (s : State) (hn : s.bufLen.toNat ≤ 55) (c : Fin 64) (hc : c.val < s.bufLen.toNat) :
    (padAndFinalize s).buf[c] = s.buf[c] := by
  have hl : (pad s.bufLen.toNat (bitLength s.count)).length = 64 - s.bufLen.toNat := by
    rw [pad_length, padZeros]; omega
  refine (absorbAll_cells s _ (by omega)).2 c fun j hj => ?_
  omega

theorem exec_finalize_frame {s t : State} (h : exec .finalize s = .next t) :
    t.count = s.count ∧
    (s.err ≠ .noError ∨ s.phase = .finalized →
      t.h = s.h ∧ t.buf = s.buf ∧ t.bufLen = s.bufLen ∧ t.phase = s.phase) ∧
    (s.err ≠ .noError ∨ s.phase = .accepting → t.err = s.err ∧ t.errCmd = s.errCmd) ∧
    (s.bufLen.toNat ≤ 55 → ∀ c : Fin 64, c.val < s.bufLen.toNat → t.buf[c] = s.buf[c]) := by
  rw [exec_finalize] at h
  cases h
  rcases whenAccepting_cases .finalizeAfterFinalize (encode .finalize) padAndFinalize s with
    ⟨-, h⟩ | ⟨he, hp, h⟩ | ⟨he, hp, h⟩ <;> rw [h]
  · exact ⟨rfl, fun _ => ⟨rfl, rfl, rfl, rfl⟩, fun _ => ⟨rfl, rfl⟩, fun _ _ _ => rfl⟩
  · exact ⟨rfl, fun _ => ⟨rfl, rfl, rfl, rfl⟩, by simp [he, hp], fun _ _ _ => rfl⟩
  · exact ⟨by simp, by simp [he, hp], by simp, padAndFinalize_keepsPending s⟩

/-- Settles O21, one frame lemma a command. -/
theorem commandFrames : Obligations.CommandFrames := by
  intro i s t h
  refine ⟨exec_samePort h, ?_, ?_, ?_, ?_⟩
  · rintro rfl; cases h; rfl
  · rintro rfl; cases h; rfl
  · rintro cnt data rfl; exact exec_append_frame h
  · rintro rfl; exact exec_finalize_frame h

end Sys2Proof.Machine
end

section
/-! PROOFS. Who writes `PHASE`, `ERR` and `ERRCMD`, `COUNT`, and `H`: case analyses of the effects of a step. -/

namespace Sys2Proof.Machine

/-- Only INIT, reset and an executed FINALIZE change the phase (R26). -/
theorem phase_writers {s t : State} (h : step s = .next t) (hne : t.phase ≠ s.phase) :
    (accepts s = true ∧ s.cmdWord = 0x1000000000000000) ∨ releasesReset s ∨
    (accepts s = true ∧ s.cmdWord = 0x3000000000000000 ∧ s.err = .noError ∧ s.phase = .accepting) := by
  cases step_effect h with
  | portOnly => exact absurd rfl hne
  | reset _ released => exact .inr (.inl released)
  | command accepted effect =>
    cases effect with
    | unchanged => exact absurd rfl hne
    | started spelled => exact .inl ⟨accepted, spelled⟩
    | appended => exact absurd (appendBytes_phase _ _) hne
    | finalized spelled noError accepting => exact .inr (.inr ⟨accepted, spelled, noError, accepting⟩)
    | raised => exact absurd rfl hne

/-- Settles O30. -/
theorem phaseWriters : Obligations.PhaseWriters := by
  refine ⟨rfl, rfl, rfl, fun s t h => ⟨fun ha hw => ?_, fun ha hi hr => ?_, fun ha hw he hp => ?_, phase_writers h⟩⟩
  · rw [step_init ha hw] at h
    cases h; rfl
  · obtain ⟨rest, hs⟩ := step_releaseReset ⟨ha, hi, hr⟩
    rw [hs] at h
    cases h; rfl
  · rw [step_finalize ha hw he hp] at h
    cases h; rfl

/-- Settles O31, by the effects a step can have. -/
theorem errorLatchWriters : Obligations.ErrorLatchWriters := by
  intro s t h hne
  cases step_effect h with
  | portOnly => exact absurd ⟨rfl, rfl⟩ hne
  | reset _ released => exact .inr ⟨rfl, rfl, .inr released⟩
  | command accepted effect =>
    cases effect with
    | unchanged => exact absurd ⟨rfl, rfl⟩ hne
    | started spelled => exact .inr ⟨rfl, rfl, .inl ⟨accepted, spelled⟩⟩
    | appended => exact absurd ⟨appendBytes_err _ _, appendBytes_errCmd _ _⟩ hne
    | finalized => exact absurd ⟨padAndFinalize_err _, padAndFinalize_errCmd _⟩ hne
    | raised code noError isCause => exact .inl ⟨noError, isCause, accepted, rfl⟩

/-- Only an executed APPEND with a byte, INIT and reset change `COUNT` (R24). -/
theorem count_writers {s t : State} (h : step s = .next t) (hne : t.count ≠ s.count) :
    (accepts s = true ∧ s.err = .noError ∧ s.phase = .accepting ∧
      ∃ cnt data, decode s.cmdWord = .command (.append cnt data) ∧ cnt ≠ 0) ∨
    (accepts s = true ∧ s.cmdWord = 0x1000000000000000) ∨ releasesReset s := by
  cases step_effect h with
  | portOnly => exact absurd rfl hne
  | reset _ released => exact .inr (.inr released)
  | command accepted effect =>
    cases effect with
    | unchanged => exact absurd rfl hne
    | started spelled => exact .inr (.inl ⟨accepted, spelled⟩)
    | appended cnt data decoded noError accepting =>
      refine .inl ⟨accepted, noError, accepting, cnt, data, decoded, ?_⟩
      rintro rfl
      exact hne rfl
    | finalized => exact absurd (padAndFinalize_count _) hne
    | raised => exact absurd rfl hne

/-- Settles O32. -/
theorem countWriters : Obligations.CountWriters := by
  refine fun s t h => ⟨fun ha cnt data hd he hp => ?_, fun ha hw => ?_, fun ha hi hr => ?_, count_writers h⟩
  · rw [step_append ha hd he hp] at h
    cases h
    simp [appendBytes_count_toNat]
  · rw [step_init ha hw] at h
    cases h; rfl
  · obtain ⟨rest, hs⟩ := step_releaseReset ⟨ha, hi, hr⟩
    rw [hs] at h
    cases h; rfl

/-- An executed APPEND that changes `H` completes one block, of the pending bytes and its own (R111, R114). -/
theorem appendBytes_h_of_ne {s : State} {bs : List Byte} (hl : bs.length ≤ 4) (hne : (appendBytes s bs).h ≠ s.h) :
    64 ≤ s.bufLen.toNat + bs.length ∧ (appendBytes s bs).h = transform s.h (packList (pendingBytes s ++ bs)) := by
  have hlen : (pendingBytes s ++ bs).length = s.bufLen.toNat + bs.length := by simp [pendingBytes_length]
  have hblocks := (absorbAll_blocks s bs).1
  rw [← appendBytes_h, hlen] at hblocks
  have hlt := s.bufLen.isLt
  rcases Nat.lt_or_ge (s.bufLen.toNat + bs.length) 64 with hfew | hfull
  · rw [Nat.div_eq_of_lt hfew] at hblocks
    exact absurd hblocks hne
  · rw [show (s.bufLen.toNat + bs.length) / 64 = 1 by omega] at hblocks
    exact ⟨hfull, hblocks⟩

/-- An executed FINALIZE compresses the pending bytes with their padding, one block or two (R115, R117). -/
theorem padAndFinalize_h_blocks (s : State) :
    let padded := pendingBytes s ++ pad s.bufLen.toNat (bitLength s.count)
    (s.bufLen.toNat ≤ 55 ∧ (padAndFinalize s).h = transform s.h (packList padded)) ∨
    (56 ≤ s.bufLen.toNat ∧
      (padAndFinalize s).h = transform (transform s.h (packList padded)) (packList (padded.drop 64))) := by
  have hblocks := (absorbAll_blocks s (pad s.bufLen.toNat (bitLength s.count))).1
  rw [padded_length, ← padAndFinalize_h] at hblocks
  rcases Nat.lt_or_ge 55 s.bufLen.toNat with htwo | hone
  · rw [if_neg (Nat.not_le.2 htwo)] at hblocks
    exact .inr ⟨htwo, hblocks⟩
  · rw [if_pos hone] at hblocks
    exact .inl ⟨hone, hblocks⟩

/-- Settles O33, by the effects a step can have. -/
theorem chainingStateWriters : Obligations.ChainingStateWriters := by
  intro s t h hne
  cases step_effect h with
  | portOnly => exact absurd rfl hne
  | reset _ released => exact .inl ⟨rfl, .inr released⟩
  | command accepted effect =>
    cases effect with
    | unchanged => exact absurd rfl hne
    | started spelled => exact .inl ⟨rfl, .inl ⟨accepted, spelled⟩⟩
    | appended cnt data decoded noError accepting =>
      have hl : (laneBytes cnt data).length ≤ 4 := by
        rw [laneBytes_length]; exact cnt_le_of_decode_append decoded
      obtain ⟨hfull, hh⟩ := appendBytes_h_of_ne hl hne
      rw [laneBytes_length] at hfull
      exact .inr ⟨accepted, noError, accepting, .inl ⟨cnt, data, decoded, hfull, hh⟩⟩
    | finalized spelled noError accepting =>
      have hh := padAndFinalize_h_blocks (takeWord s)
      rw [bitLength_eq_ofNat] at hh
      exact .inr ⟨accepted, noError, accepting, .inr ⟨spelled, hh⟩⟩
    | raised => exact absurd rfl hne

end Sys2Proof.Machine
end

section
/-! PROOFS. The counter's relation to the blocks compressed (R25), along every run. -/

namespace Sys2Proof.Machine

/-- R25 with `n` blocks compressed by APPENDs: in Accepting, `COUNT ≡ BUFLEN + 64 × n (mod 2^64)`. -/
def CountsBlocks (s : State) (n : Nat) : Prop :=
  s.phase = .accepting → s.count.toNat = (s.bufLen.toNat + 64 * n) % 2 ^ 64

/-- `NBLK` over a sequence of words is `NBLK` over the first word, then over the others. -/
theorem appendBlocks_cons {w : Word64} {s t : State} (h : acceptCommand w s = .next t) (ws : List Word64) (n : Nat) :
    appendBlocks (w :: ws) s n = appendBlocks ws t (appendBlocks [w] s n) := by
  simp only [appendBlocks, h]
  cases decode w with
  | illegal => rfl
  | command i => cases i <;> rfl

/-- A discarded APPEND compresses nothing. -/
theorem commandTransforms_of_err {w : Word64} {s : State} (he : s.err ≠ .noError) : commandTransforms w s = 0 := by
  have hs : streaming s = false := by simp [streaming, he]
  unfold commandTransforms
  cases decode w with
  | illegal => rfl
  | command i => cases i <;> simp [hs]

/-- An APPEND that executes compresses the blocks its bytes complete (R111). -/
theorem commandTransforms_append {w : Word64} {s : State} {cnt : BitVec 3} {data : BitVec 32}
    (hd : decode w = .command (.append cnt data)) (he : s.err = .noError) (hp : s.phase = .accepting) :
    commandTransforms w s = (s.bufLen.toNat + cnt.toNat) / 64 := by
  simp [commandTransforms, hd, streaming, he, hp, transformsIn_eq]

theorem countsBlocks_appendBytes {s : State} {n : Nat} (hs : CountsBlocks s n) (hp : s.phase = .accepting)
    (bs : List Byte) : CountsBlocks (appendBytes s bs) (n + (s.bufLen.toNat + bs.length) / 64) := by
  intro _
  have := hs hp
  rw [appendBytes_count_toNat, appendBytes_bufLen_toNat]
  omega

theorem countsBlocks_acceptCommand {w : Word64} {s t : State} {n : Nat} (h : acceptCommand w s = .next t)
    (hs : CountsBlocks s n) : CountsBlocks t (appendBlocks [w] s n) := by
  obtain ⟨u, hu, hcases⟩ := acceptCommand_cases w s
  simp only [appendBlocks, hu]
  rw [hu] at h
  cases h
  rcases hcases with ⟨hd, rfl⟩ | ⟨hd, rfl⟩ | ⟨cnt, data, hd, -, -, rfl⟩ | ⟨hd, -, rfl⟩ | ⟨why, hd, rfl⟩
    <;> simp only [hd]
  · exact hs
  · exact fun _ => by simp
  · rcases whenAccepting_cases .appendAfterFinalize w (appendBytes · (laneBytes cnt data)) s with
      ⟨he, h⟩ | ⟨-, hp, h⟩ | ⟨he, hp, h⟩ <;> rw [h]
    · rw [commandTransforms_of_err he]
      exact hs
    · exact fun ha => absurd (hp.symm.trans ha) (by decide)
    · rw [commandTransforms_append hd he hp, ← laneBytes_length cnt data]
      exact countsBlocks_appendBytes hs hp _
  · rcases whenAccepting_cases .finalizeAfterFinalize w padAndFinalize s with
      ⟨-, h⟩ | ⟨-, hp, h⟩ | ⟨-, -, h⟩ <;> rw [h]
    · exact hs
    · exact fun ha => absurd (hp.symm.trans ha) (by decide)
    · exact fun ha => absurd ha (by simp)
  · intro ha
    simpa using hs (by simpa using ha)

theorem countsBlocks_runCommands (ws : List Word64) {s t : State} {n : Nat} (h : runCommands ws s = .next t)
    (hs : CountsBlocks s n) : CountsBlocks t (appendBlocks ws s n) := by
  induction ws generalizing s n with
  | nil => cases h; exact hs
  | cons w ws ih =>
    obtain ⟨u, hu, -⟩ := acceptCommand_cases w s
    simp only [runCommands, hu] at h
    rw [appendBlocks_cons hu]
    exact ih h (countsBlocks_acceptCommand hu hs)

/-- Settles O38, by induction on the words. -/
theorem counterInvariant : Obligations.CounterInvariant := by
  intro ws t h hp
  have hcount := countsBlocks_runCommands ws h (n := 0) (fun _ => rfl) hp
  have hlt := t.bufLen.isLt
  exact ⟨hcount, by omega⟩

end Sys2Proof.Machine
end

section
/-! PROOFS. The reset values and the outputs (R29, R31, R34). -/

namespace Sys2Proof.Machine

/-- Settles O44. -/
theorem resetValues : Obligations.ResetValues :=
  ⟨rfl, rfl, rfl, rfl, rfl, rfl, by decide, by decide, by decide⟩

/-- `STATUS` is made of `PHASE` and `ERR` alone (R29). -/
theorem statusBits_of {s : State} {p : Phase} {e : ErrCode} (hp : s.phase = p) (he : s.err = e) :
    statusBits s = statusBits { State.reset with phase := p, err := e } := by
  simp [statusBits, dvalid, hp, he]

/-- Settles O36: the invariant leaves six of the eight pairs of phase and error. -/
theorem statusNeverImpossible : Obligations.StatusNeverImpossible := by
  intro s hs
  have misuse := hs.misuse_finalized
  cases hp : s.phase <;> cases he : s.err <;> rw [statusBits_of hp he]
  case accepting.appendAfterFinalize => simp [hp, he] at misuse
  case accepting.finalizeAfterFinalize => simp [hp, he] at misuse
  all_goals decide

/-- Settles O46, for each phase and each error. -/
theorem statusFields : Obligations.StatusFields := by
  intro s
  cases hp : s.phase <;> cases he : s.err <;> rw [statusBits_of hp he] <;> decide

/-- The byte order of R42: state words in the order A, B, C, D, each from its low end. -/
theorem serialize_getElem? (h : Quad) (r : Nat) (hr : r < 4) :
    (serialize h)[r]? = some (h.a.extractLsb' (8 * r) 8) ∧
    (serialize h)[4 + r]? = some (h.b.extractLsb' (8 * r) 8) ∧
    (serialize h)[8 + r]? = some (h.c.extractLsb' (8 * r) 8) ∧
    (serialize h)[12 + r]? = some (h.d.extractLsb' (8 * r) 8) := by
  interval_cases r <;> exact ⟨rfl, rfl, rfl, rfl⟩

/-- A byte of the serialized state on the port is that byte of `DIGEST` (R31). -/
theorem portBytes_serialize {h : Quad} {i : Nat} {b : Byte} (hb : (serialize h)[i]? = some b) :
    (portBytes (serialize h)).extractLsb' (8 * i) 8 = b := by
  obtain ⟨hi, rfl⟩ := List.getElem?_eq_some_iff.1 hb
  exact portBytes_byte (serialize h) i hi (Nat.le_of_eq (serialize_length h))

/-- Settles O48. -/
theorem digestBytes : Obligations.DigestBytes := by
  intro s hr
  refine ⟨fun hv => by simp [digestOut, hv], fun hv => ?_⟩
  refine ⟨portBytes (serialize s.h), by simp [digestOut, cmdReady, hr, hv], fun r hlt => ?_⟩
  obtain ⟨ha, hb, hc, hd⟩ := serialize_getElem? s.h r hlt
  exact ⟨portBytes_serialize ha, portBytes_serialize hb, portBytes_serialize hc, portBytes_serialize hd⟩

end Sys2Proof.Machine
end

section
/-! PROOFS. The clocked view refines the run of its accepted words (R52, R164, R170). -/

namespace Sys2Proof.Machine

/-- The registers of a clocked core are those of the words accepted since the last reset, run from the reset state. -/
def Clocked.AtItsWords (c : Clocked) : Prop := runCommands c.taken State.reset = .next c.core

/-- Everything a clock edge can do to the registers and to the accepted words (R160, R164, R165, R167): load the reset
values, keep them, or execute one more word. -/
theorem clockEdge_cases (e : Edge) (c : Clocked) : ∃ d, clockEdge e c = .next d ∧
    ((d.core = resetRegisters c.core ∧ d.taken = []) ∨
     (d.core = c.core ∧ d.taken = c.taken) ∨
     (acceptCommand e.cmdWord c.core = .next d.core ∧ d.taken = c.taken ++ [e.cmdWord])) := by
  unfold clockEdge
  split
  · exact ⟨_, rfl, .inl ⟨rfl, rfl⟩⟩
  split
  · exact ⟨_, rfl, .inr (.inl ⟨rfl, rfl⟩)⟩
  split
  · exact ⟨_, rfl, .inr (.inl ⟨rfl, rfl⟩)⟩
  split
  · obtain ⟨t, ht, -⟩ := acceptCommand_cases e.cmdWord c.core
    simp only [acceptAtEdge, ht]
    exact ⟨_, rfl, .inr (.inr ⟨rfl, rfl⟩)⟩
  · exact ⟨c, rfl, .inr (.inl ⟨rfl, rfl⟩)⟩

/-- Reset brings a core that runs from the reset state back to it: no command has touched the pins. -/
theorem resetRegisters_of_runCommands {ws : List Word64} {s : State} (h : runCommands ws State.reset = .next s) :
    resetRegisters s = State.reset := by
  obtain ⟨hv, hw, -, hi⟩ := runCommands_port ws _ s h
  rw [resetRegisters, hv, hw, hi]

theorem clockEdge_atItsWords (e : Edge) {c : Clocked} (hc : c.AtItsWords) :
    ∃ d, clockEdge e c = .next d ∧ d.AtItsWords := by
  obtain ⟨d, hd, hcases⟩ := clockEdge_cases e c
  refine ⟨d, hd, ?_⟩
  unfold Clocked.AtItsWords
  rcases hcases with ⟨hcore, htaken⟩ | ⟨hcore, htaken⟩ | ⟨hcore, htaken⟩ <;> rw [htaken]
  · rw [hcore, resetRegisters_of_runCommands hc]
    rfl
  · rw [hcore]
    exact hc
  · rw [runCommands_append _ _ _ _ hc, runCommands, hcore]
    rfl

theorem runEdges_atItsWords (es : List Edge) {c : Clocked} (hc : c.AtItsWords) :
    ∃ d, runEdges es c = .next d ∧ d.AtItsWords := by
  induction es generalizing c with
  | nil => exact ⟨c, rfl, hc⟩
  | cons e es ih =>
    obtain ⟨d, hd, hwords⟩ := clockEdge_atItsWords e hc
    simpa only [runEdges, hd] using ih hwords

/-- Settles O58: every edge keeps the relation, and the reset core has it with no word accepted. -/
theorem clockRefinesCommandRuns : Obligations.ClockRefinesCommandRuns :=
  ⟨fun e _ hc => clockEdge_atItsWords e hc, fun es => runEdges_atItsWords es (c := Clocked.reset) rfl⟩

end Sys2Proof.Machine
end

section
/-! PROOFS. The lane order of an APPEND in the words of a block (R41, R44). -/

namespace Sys2Proof.Machine

/-- A block word is `data` where its four bytes are the lanes of `data`, lowest first (R41, R44). -/
theorem pack_getElem_of_lanes {blk : Vector Byte 64} {j : Fin 16} {data : BitVec 32}
    (h : ∀ (i : Nat) (hi : i < 4), blk[4 * j.val + i] = lane data i) : (pack blk)[j] = data := by
  rw [pack_getElem, ← le32_lanes data, ← h 0 (by decide), ← h 1 (by decide), ← h 2 (by decide), ← h 3 (by decide)]
  rfl

/-- A block word depends on its own four bytes only (R41). -/
theorem pack_getElem_congr {blk blk' : Vector Byte 64} {j : Fin 16}
    (h : ∀ (i : Nat) (hi : i < 4), blk[4 * j.val + i] = blk'[4 * j.val + i]) : (pack blk)[j] = (pack blk')[j] := by
  rw [pack_getElem, pack_getElem, h 1 (by decide), h 2 (by decide), h 3 (by decide)]
  exact congrArg (le32 · _ _ _) (h 0 (by decide))

/-- Lane `i` is the byte an APPEND carries at place `i` (R62). -/
theorem laneBytes_getElem {cnt : BitVec 3} {data : BitVec 32} {i : Nat} (hi : i < (laneBytes cnt data).length) :
    (laneBytes cnt data)[i] = lane data i := by
  simp [laneBytes]

/-- Settles O14: the four cells from an aligned `BUFLEN` on are the cells of one block word. -/
theorem alignedAppendFillsOneWord : Obligations.AlignedAppendFillsOneWord := by
  intro s data haligned he hp
  have hlt := s.bufLen.isLt
  have hlen : (laneBytes 4 data).length = 4 := laneBytes_length 4 data
  obtain ⟨stored, kept⟩ := absorbAll_cells s (laneBytes 4 data) (by omega)
  refine ⟨_, exec_append_accepting 4 data s (by decide) he hp, fun j hj => ?_, fun j hj => ?_⟩
  · refine pack_getElem_of_lanes fun i hi => ?_
    rw [← laneBytes_getElem (hlen ▸ hi)]
    exact stored ⟨4 * j.val + i, by omega⟩ i (by omega) (by simp only; omega)
  · exact pack_getElem_congr fun i hi => kept ⟨4 * j.val + i, by omega⟩ fun k hk => by simp only; omega

end Sys2Proof.Machine
end

section
/-! PROOFS. A step that accepts no command (R49, R155, R160). -/

namespace Sys2Proof.Machine

/-- The core answers every state with a next one (R110). -/
theorem step_next (s : State) : ∃ t, step s = .next t := by
  rcases step_cases s with ⟨-, h⟩ | ⟨-, h⟩ <;> rw [h]
  · obtain ⟨t, ht, -⟩ := acceptCommand_cases s.cmdWord (takeWord s)
    exact ⟨t, ht⟩
  · exact ⟨_, rfl⟩

/-- Settles O26: of the effects a step can have, only the release of reset is left that writes a register. -/
theorem onlyCommandsAndResetChangeRegisters : Obligations.OnlyCommandsAndResetChangeRegisters := by
  intro s hnone
  have waiting : accepts s = false := by rcases hnone with h | h <;> simp [accepts, cmdReady, h]
  by_cases hrel : releasesReset s
  · obtain ⟨rest, hs⟩ := step_releaseReset hrel
    obtain ⟨-, hi, hr⟩ := hrel
    exact ⟨_, hs, by simp [hi, hr], fun _ _ => ⟨rfl, rfl, rfl, rfl, rfl, rfl, rfl⟩⟩
  · obtain ⟨t, hs⟩ := step_next s
    refine ⟨t, hs, fun _ => ?_, fun hi hr => absurd ⟨waiting, hi, hr⟩ hrel⟩
    cases step_effect hs with
    | command accepted => simp [waiting] at accepted
    | portOnly => rfl
    | reset _ released => exact absurd released hrel

end Sys2Proof.Machine
end

section
/-! PROOFS. Several instances (R51): a step writes the stepping instance's place and no other. -/

namespace Sys2Proof.Machine

section Instances
variable {n : Nat} [NeZero n] {j k : Fin n} {p q : Platform n} {t : State}

theorem stepAt_of_step (h : step p[k] = .next t) : Platform.stepAt k p = .next (p.set k t) := by
  simp only [Platform.stepAt, h]

theorem step_of_stepAt (h : Platform.stepAt k p = .next q) : ∃ t, step p[k] = .next t ∧ q = p.set k t := by
  obtain ⟨t, ht⟩ := step_next p[k]
  rw [stepAt_of_step ht] at h
  cases h
  exact ⟨t, ht, rfl⟩

theorem set_getElem_of_ne (h : j ≠ k) : (p.set k t)[j] = p[j] :=
  Vector.getElem_set_ne k.isLt j.isLt fun hval => h (Fin.ext hval.symm)

end Instances

/-- Settles O59. -/
theorem instancesAreIndependent : Obligations.InstancesAreIndependent := by
  intro n _ k p
  obtain ⟨t, ht⟩ := step_next p[k]
  refine ⟨p.set k t, stepAt_of_step ht, ?_, fun j hj => set_getElem_of_ne hj⟩
  rw [ht]
  simp

/-- Settles O60: each of the two steps leaves the other's instance alone, and writes to different places commute. -/
theorem instancesInterleave : Obligations.InstancesInterleave := by
  intro n _ j k p q r hjk hq hr
  obtain ⟨t, ht, rfl⟩ := step_of_stepAt hq
  obtain ⟨u, hu, rfl⟩ := step_of_stepAt hr
  rw [set_getElem_of_ne hjk.symm] at hu
  have ht' : step (p.set k u)[j] = .next t := by rw [set_getElem_of_ne hjk, ht]
  refine ⟨p.set k u, stepAt_of_step hu, ?_⟩
  rw [stepAt_of_step ht', Vector.set_comm _ _ fun hval => hjk (Fin.ext hval)]

end Sys2Proof.Machine
end

section
/-! PROOFS. The encoder and the decoder undo each other (R60 to R64), and which words are legal (R64, R66). -/

namespace Sys2Proof

/-- The decoder answers a well-formed command on its own encoding: each field is read back as it was placed. -/
theorem decode_encode {i : Instr} (hwf : i.wf = true) : decode (encode i) = .command i := by
  cases i with
  | nop => rfl
  | init => rfl
  | append cnt data =>
    have hc : cnt.toNat ≤ 4 := (wf_append cnt data).1 hwf
    simp [encode, decode, decodeAppend, Config.appendMax, hc]
  | finalize => rfl

/-- Settles O3. -/
theorem decodeOfEncodeIsTheCommand : Obligations.DecodeOfEncodeIsTheCommand :=
  fun _ hwf => decode_encode hwf

/-- A word with nothing below its opcode is the command word of that opcode (R60). -/
theorem commandWord_of_belowOpc {w : Word64} {opc : BitVec 4} (ho : opcField w = opc) (hb : belowOpc w = 0) :
    commandWord opc 0 0 0 = w := by
  obtain ⟨hr, hc, hd⟩ := (belowOpc_eq_zero_iff w).1 hb
  conv => rhs; rw [← commandWord_fields w, ho, hr, hc, hd]

/-- Each command has one spelling (R63): a word that decodes is the encoding of a well-formed command. -/
theorem wf_and_encode_of_decode {w : Word64} {i : Instr} (h : decode w = .command i) : i.wf = true ∧ encode i = w := by
  rcases decode_cases w with ⟨hd, ho, hb⟩ | ⟨hd, ho, hb⟩ | ⟨hd, ho, hr, hc⟩ | ⟨hd, ho, hb⟩ | ⟨_, hd⟩ <;>
    rw [h] at hd <;> cases hd
  · exact ⟨rfl, commandWord_of_belowOpc ho hb⟩
  · exact ⟨rfl, commandWord_of_belowOpc ho hb⟩
  · refine ⟨(wf_append _ _).2 hc, ?_⟩
    conv => rhs; rw [← commandWord_fields w, ho, hr]
    rfl
  · exact ⟨rfl, commandWord_of_belowOpc ho hb⟩

theorem decode_eq_command_iff {w : Word64} {i : Instr} : decode w = .command i ↔ i.wf = true ∧ encode i = w :=
  ⟨wf_and_encode_of_decode, fun ⟨hwf, he⟩ => he ▸ decode_encode hwf⟩

/-- Settles O4. -/
theorem encodeOfDecodedIsTheWord : Obligations.EncodeOfDecodedIsTheWord :=
  fun _ _ h => wf_and_encode_of_decode h

theorem legal_iff_decode {w : Word64} : legal w = true ↔ ∃ i, decode w = .command i := by
  unfold legal; cases decode w <;> simp

theorem illegal_of_not_legal {w : Word64} (h : legal w = false) : ∃ why, decode w = .illegal why := by
  unfold legal at h; cases hd : decode w <;> simp_all

/-- The words that spell an APPEND, by their fields (R63). -/
theorem decode_append_iff {w : Word64} : (∃ cnt data, decode w = .command (.append cnt data)) ↔
    opcField w = 2 ∧ rsvField w = 0 ∧ (cntField w).toNat ≤ 4 := by
  constructor
  · rintro ⟨cnt, data, h⟩
    obtain ⟨hwf, rfl⟩ := wf_and_encode_of_decode h
    simpa [encode] using hwf
  · rintro ⟨ho, hr, hc⟩
    exact ⟨cntField w, dataField w, by simp [decode, decodeAppend, Config.appendMax, ho, hr, hc]⟩

/-- The legal words, by their fields (R64). -/
theorem legal_iff_fields {w : Word64} : legal w = true ↔
    ((opcField w = 0 ∨ opcField w = 1 ∨ opcField w = 3) ∧ belowOpc w = 0) ∨
    (opcField w = 2 ∧ rsvField w = 0 ∧ (cntField w).toNat ≤ 4) := by
  rw [legal_iff_decode]
  constructor
  · rintro ⟨i, hi⟩
    rcases decode_cases w with ⟨-, ho, hb⟩ | ⟨-, ho, hb⟩ | ⟨-, ho, hr, hc⟩ | ⟨-, ho, hb⟩ | ⟨_, hd⟩
    · exact .inl ⟨.inl ho, hb⟩
    · exact .inl ⟨.inr (.inl ho), hb⟩
    · exact .inr ⟨ho, hr, hc⟩
    · exact .inl ⟨.inr (.inr ho), hb⟩
    · simp [hi] at hd
  · rintro (⟨ho | ho | ho, hb⟩ | happend)
    · exact ⟨.nop, by simp [decode, decodeBare, ho, hb]⟩
    · exact ⟨.init, by simp [decode, decodeBare, ho, hb]⟩
    · exact ⟨.finalize, by simp [decode, decodeBare, ho, hb]⟩
    · obtain ⟨cnt, data, h⟩ := decode_append_iff.2 happend
      exact ⟨_, h⟩

/-- Settles O5: the fields of a legal word read as numbers, and an illegal word raises its error. -/
theorem legalityOfEveryWord : Obligations.LegalityOfEveryWord := by
  refine ⟨fun w => ?_, fun w s h => ?_⟩
  · rw [legal_iff_fields]
    simp only [← BitVec.toNat_inj, opcField_toNat, belowOpc_toNat, rsvField_toNat, cntField_toNat]
    rfl
  · obtain ⟨why, hd⟩ := illegal_of_not_legal h
    exact Machine.acceptCommand_of_illegal hd s

theorem commandWord_inj {opc opc' : BitVec 4} {rsv rsv' : BitVec 25} {cnt cnt' : BitVec 3} {data data' : BitVec 32} :
    commandWord opc rsv cnt data = commandWord opc' rsv' cnt' data' ↔
      opc = opc' ∧ rsv = rsv' ∧ cnt = cnt' ∧ data = data' := by
  refine ⟨fun h => ⟨?_, ?_, ?_, ?_⟩, by rintro ⟨rfl, rfl, rfl, rfl⟩; rfl⟩
  · simpa using congrArg opcField h
  · simpa using congrArg rsvField h
  · simpa using congrArg cntField h
  · simpa using congrArg dataField h

section OpcodeTable
variable (w : Word64)

/-- A row whose mask is the whole word matches one word, the encoding of its command. -/
theorem bare_row_iff (i : Instr) (hwf : i.wf = true) :
    decode w = .command i ↔ w &&& 0xFFFFFFFFFFFFFFFF = encode i := by
  rw [decode_eq_command_iff, and_iff_right hwf, show (0xFFFFFFFFFFFFFFFF : Word64) = BitVec.allOnes 64 from rfl,
    BitVec.and_allOnes, eq_comm]

/-- APPEND's mask keeps the opcode and the reserved bits and clears `CNT` and `DATA`. -/
theorem and_appendMask : w &&& 0xFFFFFFF800000000 = commandWord (opcField w) (rsvField w) 0 0 := by
  have field (start len : Nat) : (w &&& 0xFFFFFFF800000000).extractLsb' start len =
      w.extractLsb' start len &&& (0xFFFFFFF800000000 : Word64).extractLsb' start len := BitVec.extractLsb'_and
  rw [← commandWord_fields (w &&& 0xFFFFFFF800000000)]
  simp only [commandWord_inj, opcField, rsvField, cntField, dataField, field]
  exact ⟨BitVec.and_allOnes, BitVec.and_allOnes, BitVec.and_zero, BitVec.and_zero⟩

theorem append_row_iff : w &&& 0xFFFFFFF800000000 = 0x2000000000000000 ↔ opcField w = 2 ∧ rsvField w = 0 := by
  rw [and_appendMask, show (0x2000000000000000 : Word64) = commandWord 2 0 0 0 from rfl, commandWord_inj]
  simp

/-- The table's constraint field on `cnt` is `CNT`. -/
theorem cnt_row_toNat : (w >>> 32 &&& 7).toNat = (cntField w).toNat := by
  rw [cntField_toNat, BitVec.toNat_and, BitVec.toNat_ushiftRight, Nat.shiftRight_eq_div_pow]
  exact Nat.and_two_pow_sub_one_eq_mod _ 3

end OpcodeTable

/-- Settles O6: a row without operands is one word, and APPEND's row is its opcode, reserved bits and `CNT`. -/
theorem decoderMatchesOpcodeTable : Obligations.DecoderMatchesOpcodeTable := by
  refine fun w => ⟨bare_row_iff w .nop rfl, bare_row_iff w .init rfl, ?_, bare_row_iff w .finalize rfl⟩
  rw [decode_append_iff, append_row_iff, cnt_row_toNat, and_assoc]

section Count

/-- The APPEND of a count and four lanes. -/
def appendWordOf (p : { cnt : BitVec 3 // cnt.toNat ≤ 4 } × BitVec 32) : Word64 := encode (.append p.1 p.2)

theorem appendWordOf_injective : Function.Injective appendWordOf := by
  rintro ⟨⟨cnt, _⟩, data⟩ ⟨⟨cnt', _⟩, data'⟩ h
  obtain ⟨-, -, rfl, rfl⟩ := commandWord_inj.1 h
  rfl

theorem card_bitVec (n : Nat) : Nat.card (BitVec n) = 2 ^ n := by
  rw [Nat.card_congr BitVec.equivFin.toEquiv, Nat.card_fin]

theorem card_counts : Nat.card { cnt : BitVec 3 // cnt.toNat ≤ 4 } = 5 := by
  rw [Nat.card_eq_fintype_card]
  decide

theorem range_appendWordOf :
    Set.range appendWordOf = { w | ∃ cnt data, decode w = .command (.append cnt data) } := by
  ext w
  simp only [Set.mem_range, Prod.exists, Subtype.exists, Set.mem_ofPred_eq, decode_eq_command_iff, wf_append]
  exact ⟨fun ⟨cnt, hc, data, he⟩ => ⟨cnt, data, hc, he⟩, fun ⟨cnt, data, hc, he⟩ => ⟨cnt, hc, data, he⟩⟩

theorem ncard_appendWords : { w | ∃ cnt data, decode w = .command (.append cnt data) }.ncard = 5 * 2 ^ 32 := by
  rw [← range_appendWordOf, Set.ncard_range_of_injective appendWordOf_injective, Nat.card_prod, card_counts, card_bitVec]

/-- The legal words are the three words without operands and the APPENDs (R66). -/
theorem legal_words_eq : { w | legal w = true } =
    insert (encode .nop) (insert (encode .init) (insert (encode .finalize)
      { w | ∃ cnt data, decode w = .command (.append cnt data) })) := by
  ext w
  simp only [Set.mem_ofPred_eq, Set.mem_insert_iff, legal_iff_decode]
  constructor
  · rintro ⟨i, h⟩
    cases i with
    | nop => exact .inl (wf_and_encode_of_decode h).2.symm
    | init => exact .inr (.inl (wf_and_encode_of_decode h).2.symm)
    | append cnt data => exact .inr (.inr (.inr ⟨cnt, data, h⟩))
    | finalize => exact .inr (.inr (.inl (wf_and_encode_of_decode h).2.symm))
  · rintro (rfl | rfl | rfl | ⟨cnt, data, h⟩)
    · exact ⟨.nop, rfl⟩
    · exact ⟨.init, rfl⟩
    · exact ⟨.finalize, rfl⟩
    · exact ⟨_, h⟩

/-- Settles O7: the words of APPEND are counted by their fields, and three more words are legal. -/
theorem countOfLegalWords : Obligations.CountOfLegalWords := by
  refine ⟨ncard_appendWords, ?_⟩
  change { w | legal w = true }.ncard = _
  rw [legal_words_eq, Set.ncard_insert_of_notMem, Set.ncard_insert_of_notMem, Set.ncard_insert_of_notMem,
    ncard_appendWords]
  all_goals simp [encode, commandWord_inj, decode_append_iff]

end Count

end Sys2Proof
end

section
/-! PROOFS. What a step does with an illegal word, and that an APPEND's ignored lanes have no effect (R62, R64). -/

namespace Sys2Proof.Machine

/-- Settles O24: the core takes the word from the port and raises its error, which a latched one hides. -/
theorem stepReportsAnIllegalWord : Obligations.StepReportsAnIllegalWord := by
  intro s why hv hr hd
  have hs : step s = .next (raiseError .illegalCommand s.cmdWord (takeWord s)) := by
    simp [step, accepts, cmdReady, hv, hr, acceptCommand_of_illegal hd]
  rw [hs]
  exact ⟨fun he => congrArg _ (raiseError_first _ _ (takeWord s) he),
    fun he => congrArg _ (raiseError_later _ _ (takeWord s) he)⟩

/-- The bytes an APPEND carries depend on its lanes below `CNT` only. -/
theorem laneBytes_congr {cnt : BitVec 3} {data data' : BitVec 32} (h : ∀ j < cnt.toNat, lane data j = lane data' j) :
    laneBytes cnt data = laneBytes cnt data' :=
  List.map_congr_left fun j hj => h j (List.mem_range.1 hj)

/-- An APPEND is discarded while an error is latched (R142). -/
theorem exec_append_discarded {s : State} {cnt : BitVec 3} (data : BitVec 32) (hc : cnt.toNat ≤ 4)
    (he : s.err ≠ .noError) : exec (.append cnt data) s = .next s := by
  simp [exec_append cnt data s hc, whenAccepting, he]

/-- Settles O15: discarded, neither APPEND has an effect; executed, both absorb the same bytes. -/
theorem ignoredLanesHaveNoEffect : Obligations.IgnoredLanesHaveNoEffect := by
  intro s cnt data data' hc hs hlanes
  have hbytes : laneBytes cnt data = laneBytes cnt data' := laneBytes_congr hlanes
  by_cases he : s.err = .noError
  · have hp : s.phase = .accepting := hs.resolve_left (absurd he)
    exact ⟨_, exec_append_accepting cnt data s hc he hp, hbytes ▸ exec_append_accepting cnt data' s hc he hp⟩
  · exact ⟨s, exec_append_discarded data hc he, exec_append_discarded data' hc he⟩

end Sys2Proof.Machine
end

section
/-! PROOFS. The assembler's APPEND (R67): the fields it fills from its bytes, and the way back from a word (R70). -/

namespace Sys2Proof.Machine

/-- `DATA` of an assembled APPEND: byte `j` in lane `j`, 0 where there is none (R67). -/
def dataOf (bytes : List Byte) : BitVec 32 :=
  le32 (bytes.getD 0 0) (bytes.getD 1 0) (bytes.getD 2 0) (bytes.getD 3 0)

theorem appendOf_eq (bytes : List Byte) : appendOf bytes = .append (BitVec.ofNat 3 bytes.length) (dataOf bytes) := rfl

theorem cntOf_toNat {bytes : List Byte} (h : bytes.length ≤ 4) : (BitVec.ofNat 3 bytes.length).toNat = bytes.length := by
  rw [BitVec.toNat_ofNat]; omega

theorem lane_dataOf (bytes : List Byte) {j : Nat} (hj : j < 4) : lane (dataOf bytes) j = bytes.getD j 0 := by
  unfold dataOf
  interval_cases j <;> simp

theorem wf_appendOf {bytes : List Byte} (h : bytes.length ≤ 4) : (appendOf bytes).wf = true := by
  rwa [appendOf_eq, wf_append, cntOf_toNat h]

/-- An assembled APPEND carries its bytes. -/
theorem carriedBy_appendOf {bytes : List Byte} (h : bytes.length ≤ 4) : carriedBy (appendOf bytes) = bytes := by
  apply List.ext_getElem
  · simp [carriedBy, appendOf_eq, cntOf_toNat h]
  · intro j hj hj'
    exact (laneBytes_getElem hj).trans ((lane_dataOf bytes (by omega)).trans (List.getD_eq_getElem bytes 0 hj'))

/-- The lanes of a word are the word: two words with equal lanes are equal (R44). -/
theorem eq_of_lanes {data data' : BitVec 32} (h : ∀ j < 4, lane data j = lane data' j) : data = data' := by
  rw [← le32_lanes data, ← le32_lanes data', h 0 (by decide), h 1 (by decide), h 2 (by decide), h 3 (by decide)]

theorem lane_and (data mask : BitVec 32) (j : Nat) : lane (data &&& mask) j = lane data j &&& lane mask j :=
  BitVec.extractLsb'_and

/-- A mask of the low `n` lanes has every bit of those lanes and no other. -/
theorem lane_lowMask {n j : Nat} (hj : j < 4) :
    lane (BitVec.ofNat 32 (2 ^ (8 * n) - 1)) j = if j < n then BitVec.allOnes 8 else 0 := by
  ext i hi
  have hbit : 8 * j + i < 32 := by omega
  have hlane : 8 * j + i < 8 * n ↔ j < n := by omega
  rw [lane, BitVec.getElem_extractLsb', BitVec.getLsbD_ofNat, Nat.testBit_two_pow_sub_one, decide_eq_true hbit,
    Bool.true_and, decide_eq_decide.2 hlane]
  by_cases hn : j < n
  · rw [decide_eq_true hn, if_pos hn, BitVec.getElem_allOnes]
  · rw [decide_eq_false hn, if_neg hn, BitVec.ofNat_eq_ofNat, BitVec.getElem_zero]

/-- Assembling the bytes an APPEND carries gives its `CNT` back and clears the ignored lanes (R70). -/
theorem appendOf_laneBytes (cnt : BitVec 3) (data : BitVec 32) :
    appendOf (laneBytes cnt data) = .append cnt (data &&& BitVec.ofNat 32 (2 ^ (8 * cnt.toNat) - 1)) := by
  rw [appendOf_eq, laneBytes_length, BitVec.ofNat_toNat, BitVec.setWidth_eq]
  congr 1
  refine eq_of_lanes fun j hj => ?_
  rw [lane_dataOf _ hj, lane_and, lane_lowMask hj]
  split
  next hlt => rw [BitVec.and_allOnes]; simp [laneBytes, hlt]
  next hge => simp [laneBytes, hge]

/-- Settles O8. -/
theorem disassemblyThenAssembly : Obligations.DisassemblyThenAssembly := by
  refine fun w => ⟨fun hnot => ?_, fun cnt data hd => ?_⟩
  · unfold disassemble
    cases hd : decode w with
    | illegal why => rfl
    | command i =>
      obtain ⟨-, rfl⟩ := wf_and_encode_of_decode hd
      cases i with
      | append cnt data => exact absurd hd (hnot cnt data)
      | nop => rfl
      | init => rfl
      | finalize => rfl
  · have hc := cnt_le_of_decode_append hd
    simp [disassemble, hd, AsmLine.words, Config.appendMax, hc, appendOf_laneBytes]

/-- Settles O1. -/
theorem writtenOutWordsDecode : Obligations.WrittenOutWordsDecode := by
  unfold Obligations.WrittenOutWordsDecode; decide

/-- Settles O2. -/
theorem workedEncodings : Obligations.WorkedEncodings := by
  unfold Obligations.WorkedEncodings; decide

end Sys2Proof.Machine
end

section
/-! PROOFS. The expansion of APPENDS (R69): every command carries the next four bytes, the last one what is left. -/

namespace Sys2Proof.Machine

/-- One command of the expansion: the first four bytes, or all of them where there are fewer. -/
theorem expandAppends_of_ne_nil {bytes : List Byte} (h : bytes ≠ []) :
    expandAppends bytes = appendOf (bytes.take 4) :: expandAppends (bytes.drop 4) := by
  match bytes, h with
  | [_], _ => rfl
  | [_, _], _ => rfl
  | [_, _, _], _ => rfl
  | _ :: _ :: _ :: _ :: _, _ => rfl

/-- Induction over a byte string four bytes at a time, as APPENDS is expanded. -/
theorem fourBytes_induction {P : List Byte → Prop} (nil : P [])
    (step : ∀ bytes, bytes ≠ [] → P (bytes.drop 4) → P bytes) (bytes : List Byte) : P bytes := by
  induction hn : bytes.length using Nat.strong_induction_on generalizing bytes with
  | _ n ih =>
    by_cases h : bytes = []
    · exact h ▸ nil
    · have : 0 < bytes.length := List.length_pos_iff.2 h
      exact step bytes h (ih _ (by rw [List.length_drop]; omega) _ rfl)

/-- Command `k` carries bytes `4k` on, four of them or what is left. -/
theorem expandAppends_getElem? (bytes : List Byte) (k : Nat) : (expandAppends bytes)[k]? =
    if 4 * k < bytes.length then some (appendOf ((bytes.drop (4 * k)).take 4)) else none := by
  induction bytes using fourBytes_induction generalizing k with
  | nil => simp [expandAppends]
  | step bytes h ih =>
    have : 0 < bytes.length := List.length_pos_iff.2 h
    rw [expandAppends_of_ne_nil h]
    cases k with
    | zero => simp [this]
    | succ k =>
      rw [List.getElem?_cons_succ, ih, List.drop_drop, List.length_drop, Nat.mul_succ, Nat.add_comm 4]
      simp only [Nat.lt_sub_iff_add_lt]

theorem expandAppends_length (bytes : List Byte) : (expandAppends bytes).length = (bytes.length + 3) / 4 := by
  induction bytes using fourBytes_induction with
  | nil => rfl
  | step bytes h ih =>
    have : 0 < bytes.length := List.length_pos_iff.2 h
    rw [expandAppends_of_ne_nil h, List.length_cons, ih, List.length_drop]
    omega

theorem wf_of_mem_expandAppends (bytes : List Byte) : ∀ i ∈ expandAppends bytes, i.wf = true := by
  intro i hi
  obtain ⟨k, hk⟩ := List.mem_iff_getElem?.1 hi
  rw [expandAppends_getElem?] at hk
  split at hk <;> cases hk
  exact wf_appendOf (List.length_take_le 4 _)

theorem carriedBy_expandAppends (bytes : List Byte) : ((expandAppends bytes).map carriedBy).flatten = bytes := by
  induction bytes using fourBytes_induction with
  | nil => rfl
  | step bytes h ih =>
    rw [expandAppends_of_ne_nil h, List.map_cons, List.flatten_cons, ih, carriedBy_appendOf (List.length_take_le 4 _),
      List.take_append_drop]

/-- Settles O9. -/
theorem appendsExpansion : Obligations.AppendsExpansion := by
  intro bytes
  refine ⟨?_, fun k hk => ?_, wf_of_mem_expandAppends bytes, carriedBy_expandAppends bytes⟩
  · rw [expandAppends_length]; split <;> omega
  · rw [expandAppends_length] at hk
    have hlt : 4 * k < bytes.length := by omega
    have hlen : ((bytes.drop (4 * k)).take 4).length = if k < bytes.length / 4 then 4 else bytes.length % 4 := by
      rw [List.length_take, List.length_drop]; split <;> omega
    have hcnt := cntOf_toNat (List.length_take_le 4 (bytes.drop (4 * k)))
    have hlane (j : Nat) (hj : j < 4) := lane_dataOf ((bytes.drop (4 * k)).take 4) hj
    refine ⟨_, _, by rw [expandAppends_getElem?, if_pos hlt, appendOf_eq], hcnt.trans hlen, fun j hj => ?_,
      fun j hj hge => ?_⟩
    · rw [hcnt] at hj
      have hj4 : j < 4 := hj.trans_le (List.length_take_le 4 _)
      refine Eq.trans ?_ (congrArg some (hlane j hj4)).symm
      rw [List.getD_eq_getElem _ _ hj, ← List.getElem?_eq_getElem hj, List.getElem?_take_of_lt hj4, List.getElem?_drop]
    · rw [hcnt] at hge
      exact (hlane j hj).trans (List.getD_eq_default _ _ hge)

end Sys2Proof.Machine
end

section
/-! PROOFS. A whole message (R119, R120): INIT, its APPENDs and FINALIZE leave the closed form of the digest. -/

namespace Sys2Proof.Machine

theorem runCommands_cons {w : Word64} {s t : State} (h : acceptCommand w s = .next t) (ws : List Word64) :
    runCommands (w :: ws) s = runCommands ws t := by
  simp only [runCommands, h]

theorem absorbAll_append (s : State) (xs ys : List Byte) : absorbAll s (xs ++ ys) = absorbAll (absorbAll s xs) ys :=
  List.foldl_append

/-- An accepted encoding runs its command. -/
theorem acceptCommand_encode {i : Instr} (hwf : i.wf = true) (s : State) : acceptCommand (encode i) s = exec i s :=
  acceptCommand_of_decode (decode_encode hwf) s

/-- APPENDs that execute one after another append their joined bytes (R119). -/
theorem runCommands_appendWords (chunks : List (BitVec 3 × BitVec 32)) {s : State} (hc : ∀ c ∈ chunks, c.1.toNat ≤ 4)
    (he : s.err = .noError) (hp : s.phase = .accepting) :
    runCommands (appendWords chunks) s = .next (appendBytes s (carriedBytes chunks)) := by
  induction chunks generalizing s with
  | nil => rfl
  | cons c chunks ih =>
    have hc1 : c.1.toNat ≤ 4 := hc c List.mem_cons_self
    have hrun : acceptCommand (encode (.append c.1 c.2)) s = .next (appendBytes s (laneBytes c.1 c.2)) := by
      rw [acceptCommand_encode ((wf_append _ _).2 hc1), exec_append_accepting _ _ s hc1 he hp, appendBytes_eq,
        laneBytes_length]
    refine (runCommands_cons hrun _).trans ?_
    refine (ih (fun d hd => hc d (List.mem_cons_of_mem c hd)) (by simpa using he) (by simpa using hp)).trans ?_
    rw [← appendBytes_append]
    rfl

/-- The run of a whole message depends on the joined bytes only (R119). -/
theorem runCommands_message (chunks : List (BitVec 3 × BitVec 32)) (s : State) (hc : ∀ c ∈ chunks, c.1.toNat ≤ 4) :
    runCommands (encode .init :: (appendWords chunks ++ [encode .finalize])) s =
      .next (padAndFinalize (appendBytes (startMessage s) (carriedBytes chunks))) := by
  rw [runCommands_cons (acceptCommand_encode rfl s), runCommands_append _ _ _ _ (runCommands_appendWords chunks hc rfl rfl)]
  refine runCommands_cons ((acceptCommand_encode rfl _).trans (exec_finalize_accepting _ ?_ ?_)) [] <;> simp

/-- The padding FINALIZE absorbs after a message `m` is the padding of `m` (R115, R116). -/
theorem pad_of_message (s : State) (m : List Byte) :
    pad (appendBytes (startMessage s) m).bufLen.toNat (bitLength (appendBytes (startMessage s) m).count) =
      pad (m.length % 64) (BitVec.ofNat 64 (m.length * 8)) := by
  rw [appendBytes_bufLen_toNat, appendBytes_count]
  simp [bitLength, BitVec.ofNat_mul]

/-- The chaining state after a whole message is the closed form (R120): from an empty buffer, absorbing compresses the
padded message block by block. -/
theorem message_h (s : State) (m : List Byte) : (padAndFinalize (appendBytes (startMessage s) m)).h = md5State m := by
  have hempty : pendingBytes (startMessage s) = [] := by simp [pendingBytes]
  have hblocks := (absorbAll_blocks (startMessage s) (paddedMessage m)).1
  rw [padAndFinalize_h, pad_of_message, appendBytes_eq, absorbAll_withCount]
  rw [hempty, List.nil_append, paddedMessage, absorbAll_append] at hblocks
  exact hblocks

/-- After a whole message the digest is valid and is the MD5 of its bytes (R31, R120). -/
theorem message_digest (s : State) (m : List Byte) (hr : s.resetAsserted = false) :
    dvalid (padAndFinalize (appendBytes (startMessage s) m)) = true ∧
      digestOut (padAndFinalize (appendBytes (startMessage s) m)) = some (portBytes (md5 m)) := by
  have hvalid : dvalid (padAndFinalize (appendBytes (startMessage s) m)) = true := by simp [dvalid]
  have hready : cmdReady (padAndFinalize (appendBytes (startMessage s) m)) = true := by
    simp [cmdReady, padAndFinalize, appendBytes_eq, hr]
  refine ⟨hvalid, ?_⟩
  rw [digestOut, if_pos ⟨hready, hvalid⟩, message_h, md5]

/-- The expansion of APPENDS is a sequence of APPENDs that carries its bytes (R69). -/
theorem expandAppends_words (bytes : List Byte) : ∃ chunks : List (BitVec 3 × BitVec 32),
    (∀ c ∈ chunks, c.1.toNat ≤ 4) ∧ (expandAppends bytes).map encode = appendWords chunks ∧
    carriedBytes chunks = bytes := by
  induction bytes using fourBytes_induction with
  | nil => exact ⟨[], by simp, rfl, rfl⟩
  | step bytes h ih =>
    obtain ⟨chunks, hc, hw, hb⟩ := ih
    have hlen : (bytes.take 4).length ≤ 4 := List.length_take_le 4 _
    refine ⟨(BitVec.ofNat 3 (bytes.take 4).length, dataOf (bytes.take 4)) :: chunks, ?_, ?_, ?_⟩
    · exact List.forall_mem_cons.2 ⟨(cntOf_toNat hlen).trans_le hlen, hc⟩
    · rw [expandAppends_of_ne_nil h, List.map_cons, hw, appendOf_eq]
      rfl
    · rw [carriedBytes, List.map_cons, List.flatten_cons]
      exact (congrArg₂ (· ++ ·) (carriedBy_appendOf hlen) hb).trans (List.take_append_drop 4 bytes)

/-- Settles O43: the expansion is INIT, APPENDs that carry the bytes, and FINALIZE. -/
theorem digestPseudoInstruction : Obligations.DigestPseudoInstruction := by
  intro s m hr
  obtain ⟨chunks, hc, hw, rfl⟩ := expandAppends_words m
  have hwords : (expandDigest (carriedBytes chunks)).map encode =
      encode .init :: (appendWords chunks ++ [encode .finalize]) := by
    rw [expandDigest, List.map_cons, List.map_append, hw]
    rfl
  rw [hwords, runCommands_message chunks s hc]
  exact ⟨_, rfl, message_digest s _ hr⟩

end Sys2Proof.Machine
end

section
/-! PROOFS. The compression function (R80 to R90): rotation and mixing bit by bit, the rows of the schedule, and four steps in
fixed names. -/

namespace Sys2Proof.Machine

/-- The two shifts of R80 are the library's rotation. -/
theorem rotl32_eq_rotateLeft (x : Word) (s : Nat) : rotl32 x s = x.rotateLeft s := rfl

theorem rotl32_getLsbD (x : Word) (s : Nat) {j : Nat} (hj : j < 32) :
    (rotl32 x s).getLsbD j = x.getLsbD ((j + (32 - s % 32)) % 32) := by
  rw [rotl32_eq_rotateLeft, BitVec.getLsbD_rotateLeft]
  by_cases hlow : j < s % 32
  · have hwrap : (j + (32 - s % 32)) % 32 = 32 - s % 32 + j := by omega
    simp [hlow, hwrap]
  · have hshift : (j + (32 - s % 32)) % 32 = j - s % 32 := by omega
    simp [hlow, hj, hshift]

/-- Settles O49: the two shifts are a rotation, and by 0 every bit stays in its place. -/
theorem rotateLeftBits : Obligations.RotateLeftBits := by
  refine fun x s => ⟨fun j hj => rotl32_getLsbD x s hj, fun hs => BitVec.eq_of_getLsbD_eq fun j hj => ?_⟩
  rw [rotl32_getLsbD x s hj, hs, Nat.sub_zero, Nat.add_mod_right, Nat.mod_eq_of_lt hj]

theorem mixF_getLsbD (x y z : Word) (j : Nat) :
    (mixF x y z).getLsbD j = if x.getLsbD j then y.getLsbD j else z.getLsbD j := by
  cases hx : x.getLsbD j
  · simp [mixF, hx]
  · simp [mixF, hx, Bool.xor_comm (y.getLsbD j)]

/-- Settles O50: G is F with its arguments rotated, and the operators of H and I act bit by bit. -/
theorem mixingFunctionsBitwise : Obligations.MixingFunctionsBitwise := by
  intro x y z j hj
  refine ⟨mixF_getLsbD x y z j, mixF_getLsbD z x y j, ?_, ?_⟩
  · simp [mixH]
  · simp [mixI, hj]

theorem schedule_getElem? {t : Nat} (ht : t < 64) : schedule[t]? = some (stepRow t) := by
  simp [schedule, ht]

/-- The sixteen rows of round `r`, by their index in the round. -/
theorem schedule_round {r : Nat} (hr : r < 4) :
    (schedule.drop (16 * r)).take 16 = (List.range 16).map fun i => stepRow (16 * r + i) := by
  refine List.ext_getElem? fun i => ?_
  by_cases hi : i < 16
  · have ht : 16 * r + i < 64 := by omega
    simp [List.getElem?_take_of_lt hi, schedule_getElem? ht, hi]
  · simp [hi]

theorem msgIndex_eq (r i : Nat) : msgIndex r i =
    if r = 0 then i else if r = 1 then (1 + 5 * i) % 16 else if r = 2 then (5 + 3 * i) % 16 else 7 * i % 16 := by
  match r with
  | 0 | 1 | 2 | _ + 3 => simp [msgIndex]

theorem msgIndex_lt (r : Nat) {i : Nat} (hi : i < 16) : msgIndex r i < 16 := by
  rw [msgIndex_eq]
  split_ifs <;> omega

/-- The factors 1, 5, 3 and 7 of R86 are odd, so a round's message index is one-to-one modulo 16. -/
theorem msgIndex_inj {r i j : Nat} (hi : i < 16) (hj : j < 16) (h : msgIndex r i = msgIndex r j) : i = j := by
  simp only [msgIndex_eq] at h
  split_ifs at h <;> omega

theorem stepRow_k (r : Nat) {i : Nat} (hi : i < 16) : (stepRow (16 * r + i)).k.val = msgIndex r i := by
  have hround : (16 * r + i) / 16 = r := by omega
  have hindex : (16 * r + i) % 16 = i := by omega
  rw [stepRow, hround, hindex]
  exact Nat.mod_eq_of_lt (msgIndex_lt r hi)

/-- Settles O51: the sixteen message indices of a round are distinct block words, so they are all of them. -/
theorem eachRoundVisitsEveryWord : Obligations.EachRoundVisitsEveryWord := by
  intro r hr
  constructor
  · intro i hi
    have ht : 16 * r + i < 64 := by omega
    rw [List.getElem?_map, schedule_getElem? ht, Option.map_some, stepRow_k r hi, msgIndex_eq]
  · rw [schedule_round hr, List.map_map]
    have hdistinct : ((List.range 16).map ((fun row => row.k) ∘ fun i => stepRow (16 * r + i))).Nodup := by
      refine List.nodup_range.map_on fun i hi j hj hij => ?_
      rw [List.mem_range] at hi hj
      refine msgIndex_inj (r := r) hi hj ?_
      rw [← stepRow_k r hi, ← stepRow_k r hj]
      exact congrArg Fin.val hij
    exact (hdistinct.subperm fun k _ => List.mem_finRange k).perm_of_length_le (by simp)

theorem roundFn_eq (r : Nat) : roundFn r = if r < 1 then .F else if r < 2 then .G else if r < 3 then .H else .I := by
  match r with
  | 0 | 1 | 2 | _ + 3 => simp [roundFn]

/-- The four lists of R87 one after another. -/
theorem rotations_getD : ∀ r < 4, ∀ p < 4, (rotations r).getD p 0 =
    [7, 12, 17, 22, 5, 9, 14, 20, 4, 11, 16, 23, 6, 10, 15, 21].getD (r * 4 + p) 0 := by
  decide

/-- Settles O52: row `t` is place `t mod 4` of round `t div 16`. -/
theorem roundFunctionsAndRotations : Obligations.RoundFunctionsAndRotations := by
  refine ⟨by simp [schedule], fun t ht => ?_⟩
  have hround : t / 16 < 4 := by omega
  have hplace : t % 16 % 4 = t % 4 := Nat.mod_mod_of_dvd t (by decide)
  have hfn : roundFn (t / 16) = if t < 16 then .F else if t < 32 then .G else if t < 48 then .H else .I := by
    simp only [roundFn_eq, Nat.div_lt_iff_lt_mul (show 0 < 16 by decide), Nat.reduceMul]
  have hs := rotations_getD (t / 16) hround (t % 4) (Nat.mod_lt t (by decide))
  rw [schedule_getElem? ht, Option.map_some, stepRow, hplace, hfn, hs]

/-- One step gives the new value to `b` and moves the other names on (R89, R90). -/
theorem mixStep_eq (x : Vector Word 16) (a b c d : Word) (row : StepRow) :
    mixStep x ⟨a, b, c, d⟩ row = ⟨d, b + rotl32 (a + mix row.fn b c d + x[row.k] + row.const) row.s, b, c⟩ := rfl

/-- Settles O53: the names move on once a step (R90), so after four steps each stands in its own place again. -/
theorem fourStepsInFixedNames : Obligations.FourStepsInFixedNames := by
  rintro x ⟨a, b, c, d⟩ r0 r1 r2 r3
  simp only [List.foldl_cons, List.foldl_nil, mixStep_eq]

end Sys2Proof.Machine
end

section
/-! PROOFS. What an accepted word does, case by case (R110, R112 to R114): the equations of the checks of R110 and of the
words without operands. -/

namespace Sys2Proof.Machine

/-- A well-formed command is spelled by its encoding and by no other word (R63). -/
theorem decode_iff_eq_encode {i : Instr} (hwf : i.wf = true) (w : Word64) : decode w = .command i ↔ w = encode i := by
  rw [decode_eq_command_iff, and_iff_right hwf, eq_comm]

/-- Settles O10: NOP's word is the encoding of NOP, and the legal words below `2^60` are that one alone. -/
theorem nopHasNoEffect : Obligations.NopHasNoEffect := by
  refine ⟨decode_iff_eq_encode rfl, fun w hopc hw => ?_, exec_nop⟩
  rw [← Bool.not_eq_true, legalityOfEveryWord.1 w]
  rintro (⟨-, hbelow⟩ | ⟨happend, -, -⟩)
  · exact hw (BitVec.eq_of_toNat_eq (show w.toNat = 0 by omega))
  · omega

/-- Settles O11: INIT's word is its encoding, and a new message has no error and is Accepting. -/
theorem initStartsANewMessage : Obligations.InitStartsANewMessage := by
  refine ⟨decode_iff_eq_encode rfl, fun s => ⟨startMessage s, exec_init s, rfl, ?_, rfl, rfl⟩⟩
  rw [statusBits_of (startMessage_phase s) (startMessage_err s)]
  decide

/-- Settles O19. -/
theorem oversizedAppendIsIllegal : Obligations.OversizedAppendIsIllegal :=
  fun s cnt data hc => exec_append_oversized cnt data s hc

section Checks
variable {misuse : ErrCode} {w : Word64} {effect : State → State} {s : State}

/-- Discarded while an error is latched (R142). -/
theorem whenAccepting_of_err (he : s.err ≠ .noError) : whenAccepting misuse w effect s = s := if_pos he

/-- Misuse in Finalized (R140). -/
theorem whenAccepting_of_finalized (he : s.err = .noError) (hp : s.phase = .finalized) :
    whenAccepting misuse w effect s = { s with err := misuse, errCmd := w } := by
  simp [whenAccepting, he, hp, raiseError]

theorem whenAccepting_of_accepting (he : s.err = .noError) (hp : s.phase = .accepting) :
    whenAccepting misuse w effect s = effect s := by
  simp [whenAccepting, he, hp]

end Checks

/-- A decoded APPEND goes through the checks of R110 with the accepted word as the one an error records (R141). -/
theorem acceptCommand_append {w : Word64} {cnt : BitVec 3} {data : BitVec 32}
    (hd : decode w = .command (.append cnt data)) (s : State) :
    acceptCommand w s = .next (whenAccepting .appendAfterFinalize w (appendBytes · (laneBytes cnt data)) s) := by
  rw [acceptCommand_of_decode hd, exec_append cnt data s (cnt_le_of_decode_append hd), (wf_and_encode_of_decode hd).2]

/-- A decoded FINALIZE goes through the checks of R110, as APPEND does. -/
theorem acceptCommand_finalize {w : Word64} (hd : decode w = .command .finalize) (s : State) :
    acceptCommand w s = .next (whenAccepting .finalizeAfterFinalize w padAndFinalize s) := by
  rw [acceptCommand_of_decode hd, exec_finalize, (wf_and_encode_of_decode hd).2]

/-- Settles O22: each case of the decoder names the next state, and there is only one. -/
theorem acceptedWordDispatch : Obligations.AcceptedWordDispatch := by
  intro w s
  obtain ⟨t, ht, -⟩ := acceptCommand_cases w s
  have only {u : State} (hu : acceptCommand w s = .next u) : t = u := Host.Outcome.next.inj (ht.symm.trans hu)
  refine ⟨t, ht, fun h => ?_, fun hd => ?_, fun hd => ?_, fun cnt data hd => ?_, fun hd => ?_⟩
  · exact only (legalityOfEveryWord.2 w s h)
  · exact only (acceptCommand_of_decode hd s)
  · exact only (acceptCommand_of_decode hd s)
  · rw [only (acceptCommand_append hd s)]
    exact ⟨whenAccepting_of_err, whenAccepting_of_finalized, whenAccepting_of_accepting⟩
  · rw [only (acceptCommand_finalize hd s)]
    exact ⟨whenAccepting_of_err, whenAccepting_of_finalized, whenAccepting_of_accepting⟩

/-- Settles O25. -/
theorem stepIsTotal : Obligations.StepIsTotal := step_next

end Sys2Proof.Machine
end

section
/-! PROOFS. The padding (R116, R117), and how many TRANSFORMs a command performs (R165). -/

namespace Sys2Proof.Machine

/-- R116's `z` as the spec writes it, `(55 - n) mod 64` over the integers. -/
theorem padZeros_eq_int {n : Nat} (hn : n < 64) : (padZeros n : Int) = (55 - (n : Int)) % 64 := by
  unfold padZeros; omega

/-- `z` zero bytes bring the fill to 56 modulo 64, and fewer do not (R116). -/
theorem padZeros_least {n : Nat} (hn : n < 64) :
    (n + 1 + padZeros n) % 64 = 56 ∧ ∀ z < padZeros n, (n + 1 + z) % 64 ≠ 56 := by
  unfold padZeros
  exact ⟨by omega, fun z hz => by omega⟩

/-- Settles O54. -/
theorem paddingShape : Obligations.PaddingShape := by
  intro n bitlen hn
  obtain ⟨hfill, hleast⟩ := padZeros_least hn
  have hz : padZeros n < 64 := Nat.mod_lt _ (by decide)
  have htotal : n + (padZeros n + 9) = if n ≤ 55 then 64 else 128 := by split <;> omega
  rw [pad_length]
  exact ⟨padZeros_eq_int hn, hfill, hleast, rfl, rfl, by omega, by omega, htotal⟩

/-- A word that finds an error or Finalized compresses nothing (R110). -/
theorem commandTransforms_of_not_streaming {w : Word64} {s : State} (h : s.err ≠ .noError ∨ s.phase = .finalized) :
    commandTransforms w s = 0 := by
  have hs : streaming s = false := by rcases h with h | h <;> simp [streaming, h]
  unfold commandTransforms
  cases decode w with
  | illegal => rfl
  | command i => cases i <;> simp [hs]

/-- A FINALIZE that executes compresses one padded block up to `BUFLEN` 55 and two from 56 on (R117). -/
theorem commandTransforms_finalize {w : Word64} {s : State} (hd : decode w = .command .finalize)
    (he : s.err = .noError) (hp : s.phase = .accepting) :
    commandTransforms w s = if s.bufLen.toNat ≤ 55 then 1 else 2 := by
  have hs : streaming s = true := by simp [streaming, he, hp]
  have hpadded := padded_length s (bitLength s.count)
  rw [List.length_append, pendingBytes_length] at hpadded
  simp only [commandTransforms, hd, hs, if_true, transformsIn_eq, hpadded]
  split <;> rfl

/-- An APPEND performs one TRANSFORM where it executes and its bytes complete the block, and none otherwise (R165): four
bytes complete at most one. -/
theorem commandTransforms_of_decode_append {w : Word64} {cnt : BitVec 3} {data : BitVec 32}
    (hd : decode w = .command (.append cnt data)) (s : State) :
    commandTransforms w s =
      if s.err = .noError ∧ s.phase = .accepting ∧ 64 ≤ s.bufLen.toNat + cnt.toNat then 1 else 0 := by
  by_cases he : s.err = .noError
  · cases hp : s.phase with
    | accepting =>
      have hc := cnt_le_of_decode_append hd
      have hlt := s.bufLen.isLt
      simp only [commandTransforms_append hd he hp, he, true_and]
      split <;> omega
    | finalized => simp [commandTransforms_of_not_streaming (.inr hp)]
  · simp [commandTransforms_of_not_streaming (.inl he), he]

/-- A word that is neither APPEND nor FINALIZE compresses nothing (R165). -/
theorem commandTransforms_of_other_word {w : Word64} (s : State)
    (hw : decode w = .command .nop ∨ decode w = .command .init ∨ legal w = false) : commandTransforms w s = 0 := by
  rcases hw with hd | hd | hl
  · simp only [commandTransforms, hd]
  · simp only [commandTransforms, hd]
  · obtain ⟨why, hd⟩ := illegal_of_not_legal hl
    simp only [commandTransforms, hd]

/-- Settles O55, one lemma a clause. -/
theorem transformsPerCommand : Obligations.TransformsPerCommand :=
  fun _ s => ⟨fun _ _ hd => commandTransforms_of_decode_append hd s, commandTransforms_finalize,
    commandTransforms_of_not_streaming, commandTransforms_of_other_word s⟩

end Sys2Proof.Machine
end

section
/-! PROOFS. The stream commands (R111, R114 to R117): an executing APPEND joins its bytes to the pending ones, an executing
FINALIZE compresses the padding and shows the digest. -/

namespace Sys2Proof.Machine

section AppendBlocks
variable (s : State) (bs : List Byte)

/-- An executed APPEND compresses the whole blocks of the joined bytes and leaves the rest pending (R111, R114). -/
theorem appendBytes_blocks :
    (appendBytes s bs).h = compressBlocks ((pendingBytes s ++ bs).length / 64) s.h (pendingBytes s ++ bs) ∧
    pendingBytes (appendBytes s bs) =
      (pendingBytes s ++ bs).drop (64 * ((pendingBytes s ++ bs).length / 64)) := by
  rw [appendBytes_eq]
  exact absorbAll_blocks s bs

theorem appendBytes_of_short (hl : (pendingBytes s ++ bs).length < 64) :
    (appendBytes s bs).h = s.h ∧ pendingBytes (appendBytes s bs) = pendingBytes s ++ bs := by
  have hblocks := appendBytes_blocks s bs
  rwa [Nat.div_eq_of_lt hl] at hblocks

theorem appendBytes_of_full (hl : 64 ≤ (pendingBytes s ++ bs).length) (hl' : (pendingBytes s ++ bs).length < 128) :
    (appendBytes s bs).h = transform s.h (packList (pendingBytes s ++ bs)) ∧
    pendingBytes (appendBytes s bs) = (pendingBytes s ++ bs).drop 64 := by
  have hblocks := appendBytes_blocks s bs
  rwa [show (pendingBytes s ++ bs).length / 64 = 1 by omega] at hblocks

end AppendBlocks

/-- An APPEND that executes is R114's loop over its bytes. -/
theorem exec_append_eq_appendBytes {cnt : BitVec 3} {s : State} (data : BitVec 32) (hc : cnt.toNat ≤ 4)
    (he : s.err = .noError) (hp : s.phase = .accepting) :
    exec (.append cnt data) s = .next (appendBytes s (laneBytes cnt data)) := by
  rw [exec_append cnt data s hc, whenAccepting_of_accepting he hp]

/-- Settles O12: the joined bytes are fewer than two blocks. -/
theorem appendJoinsItsBytes : Obligations.AppendJoinsItsBytes := by
  intro s cnt data hc he hp
  have hlen : (pendingBytes s ++ laneBytes cnt data).length < 128 := by
    have := s.bufLen.isLt
    rw [List.length_append, pendingBytes_length, laneBytes_length]
    omega
  refine ⟨_, exec_append_eq_appendBytes data hc he hp,
    ⟨appendBytes_of_short s _, fun hfull => appendBytes_of_full s _ hfull hlen⟩, ?_, ?_, ?_, ?_, ?_, ?_⟩
  · rw [appendBytes_bufLen_toNat, laneBytes_length]
  · rw [appendBytes_count_toNat, laneBytes_length]
  · rw [appendBytes_phase, hp]
  · rw [appendBytes_err, he]
  · exact appendBytes_errCmd s _
  · exact appendBytes_samePort s _

/-- Settles O13: an APPEND stores where ABSORB of its bytes does. -/
theorem appendStoresInTheBuffer : Obligations.AppendStoresInTheBuffer := by
  intro s cnt data hc he hp
  have hlen : (laneBytes cnt data).length = cnt.toNat := laneBytes_length cnt data
  obtain ⟨stored, kept⟩ := absorbAll_cells s (laneBytes cnt data) (by omega)
  refine ⟨_, exec_append_accepting cnt data s hc he hp, fun c j hj hcell => ?_, fun c hcell => ?_⟩
  · have hj' : j < (laneBytes cnt data).length := hlen ▸ hj
    exact (stored c j hj' hcell).trans (laneBytes_getElem hj')
  · exact kept c (hlen ▸ hcell)

/-- `DVALID` after a FINALIZE that executed (R29). -/
theorem padAndFinalize_dvalid {s : State} (he : s.err = .noError) : dvalid (padAndFinalize s) = true := by
  simp [dvalid, he]

/-- While ready with `DVALID = 1`, `DIGEST` is the serialized chaining state (R31, R42). -/
theorem digestOut_of_dvalid {s : State} (hr : s.resetAsserted = false) (hv : dvalid s = true) :
    digestOut s = some (portBytes (serialize s.h)) := by
  simp [digestOut, cmdReady, hr, hv]

/-- Settles O16: the pending bytes and their padding are one block or two. -/
theorem finalizeCompressesThePadding : Obligations.FinalizeCompressesThePadding := by
  intro s he hp
  obtain ⟨-, -, hreset, -⟩ := padAndFinalize_samePort s
  have hlen := padded_length s (bitLength s.count)
  have hh := padAndFinalize_h_blocks s
  rw [bitLength_eq_ofNat] at hlen hh
  refine ⟨_, exec_finalize_accepting s he hp, ⟨fun hone => ?_, fun htwo => ?_⟩, padAndFinalize_bufLen s,
    padAndFinalize_count s, padAndFinalize_phase s, (padAndFinalize_err s).trans he, padAndFinalize_errCmd s,
    padAndFinalize_samePort s, ?_, fun hr => digestOut_of_dvalid (hreset ▸ hr) (padAndFinalize_dvalid he)⟩
  · rw [if_pos hone] at hlen
    exact ⟨hlen, (hh.resolve_right fun h => absurd h.1 (by omega)).2⟩
  · rw [if_neg (by omega)] at hlen
    exact ⟨hlen, (hh.resolve_left fun h => absurd h.1 (by omega)).2⟩
  · rw [statusBits_of (padAndFinalize_phase s) ((padAndFinalize_err s).trans he)]
    decide

/-- `COUNT × 8` modulo 2^64 depends on `COUNT` modulo 2^61 only (R115). -/
theorem bitLength_congr {c c' : Word64} (h : c.toNat % 2 ^ 61 = c'.toNat % 2 ^ 61) : bitLength c = bitLength c' := by
  rw [bitLength_eq_ofNat, bitLength_eq_ofNat]
  apply BitVec.eq_of_toNat_eq
  simp only [BitVec.toNat_ofNat]
  omega

/-- FINALIZE reads `COUNT` for the length field only (R115). -/
theorem padAndFinalize_h_withCount {s : State} {c : Word64} (h : bitLength s.count = bitLength c) :
    (padAndFinalize { s with count := c }).h = (padAndFinalize s).h := by
  rw [padAndFinalize_h, padAndFinalize_h, absorbAll_withCount, h]

/-- Settles O17: the two length fields are equal, and nothing else of FINALIZE reads `COUNT`. -/
theorem lengthFieldWraps : Obligations.LengthFieldWraps := by
  intro s s' he hp hs' hcount
  rw [hs']
  exact ⟨_, _, exec_finalize_accepting s he hp, exec_finalize_accepting _ he hp,
    (padAndFinalize_h_withCount (bitLength_congr hcount)).symm⟩

end Sys2Proof.Machine
end

section
/-! PROOFS. Runs of words (R118 to R120): the digest until the next INIT, and the digest of a whole message. -/

namespace Sys2Proof.Machine

/-- In Finalized no word but INIT writes `H` or the phase (R118). -/
theorem acceptCommand_keepsDigest {w : Word64} {s t : State} (h : acceptCommand w s = .next t)
    (hw : decode w ≠ .command .init) (hp : s.phase = .finalized) : t.h = s.h ∧ t.phase = .finalized := by
  cases acceptCommand_effect h with
  | unchanged => exact ⟨rfl, hp⟩
  | started spelled => exact absurd ((decode_iff_eq_encode (i := .init) rfl w).2 spelled) hw
  | appended _ _ _ _ accepting => simp [hp] at accepting
  | finalized _ _ accepting => simp [hp] at accepting
  | raised => exact ⟨rfl, hp⟩

theorem runCommands_keepsDigest {ws : List Word64} {s t : State} (h : runCommands ws s = .next t)
    (hws : ∀ w ∈ ws, decode w ≠ .command .init) (hp : s.phase = .finalized) : t.h = s.h ∧ t.phase = .finalized := by
  induction ws generalizing s with
  | nil => cases h; exact ⟨rfl, hp⟩
  | cons w ws ih =>
    obtain ⟨hw, hws⟩ := List.forall_mem_cons.1 hws
    obtain ⟨u, hu, -⟩ := acceptCommand_cases w s
    obtain ⟨huh, hup⟩ := acceptCommand_keepsDigest hu hw hp
    rw [runCommands_cons hu] at h
    rw [← huh]
    exact ih h hws hup

/-- Settles O39, by induction on the words. -/
theorem digestStaysUntilInit : Obligations.DigestStaysUntilInit := by
  intro s ws hp _ hr hws
  obtain ⟨t, ht⟩ := runCommands_next ws s
  obtain ⟨hh, htp⟩ := runCommands_keepsDigest ht hws hp
  obtain ⟨-, -, hreset, -⟩ := runCommands_port ws s t ht
  refine ⟨t, ht, hh, htp, fun he => ?_, fun he => ?_⟩
  · have hv : dvalid t = true := by simp [dvalid, htp, he]
    exact ⟨hv, hh ▸ digestOut_of_dvalid (hreset.trans hr) hv⟩
  · have hv : dvalid t = false := by simp [dvalid, he]
    exact ⟨hv, by simp [digestOut, hv]⟩

/-- Settles O41: both runs end in the state that the joined bytes give. -/
theorem streamingEquivalence : Obligations.StreamingEquivalence := by
  intro s chunks chunks' hc hc' hbytes
  refine ⟨_, runCommands_message chunks s hc, ?_, by simp⟩
  rw [runCommands_message chunks' s hc', hbytes]

/-- The padded message is whole blocks (R116, R120). -/
theorem paddedMessage_length_mod (m : List Byte) : (paddedMessage m).length % 64 = 0 := by
  rw [paddedMessage, List.length_append, pad_length, padZeros]
  omega

/-- Settles O42: the run ends in the state whose `H` and digest the closed form gives. -/
theorem digestIsTheClosedForm : Obligations.DigestIsTheClosedForm :=
  fun s chunks hr hc => ⟨paddedMessage_length_mod _, _, runCommands_message chunks s hc, message_h s _,
    message_digest s _ hr⟩

end Sys2Proof.Machine
end

section
/-! PROOFS. Errors (R140 to R142): misuse in Finalized, and that a latched error discards every word but INIT. -/

namespace Sys2Proof.Machine

/-- Settles O47. -/
theorem causeCodes : Obligations.CauseCodes := ⟨rfl, rfl, rfl, rfl⟩

/-- Settles O18: both commands fail the check of R146 in Finalized, and `STATUS` follows from the phase and the code. -/
theorem misuseAfterFinalize : Obligations.MisuseAfterFinalize := by
  intro s he hp
  refine ⟨fun cnt data hc => ⟨_, ?_, rfl, ?_⟩, _, ?_, rfl, ?_⟩
  · rw [exec_append cnt data s hc, whenAccepting_of_finalized he hp]
  · exact Eq.trans (statusBits_of (e := .appendAfterFinalize) hp rfl) (by decide)
  · rw [exec_finalize, whenAccepting_of_finalized he hp]
    rfl
  · exact Eq.trans (statusBits_of (e := .finalizeAfterFinalize) hp rfl) (by decide)

/-- While an error is latched a word that is not INIT is discarded (R142). -/
theorem acceptCommand_of_err {w : Word64} {s : State} (he : s.err ≠ .noError) (hw : decode w ≠ .command .init) :
    acceptCommand w s = .next s := by
  obtain ⟨t, ht, -⟩ := acceptCommand_cases w s
  rw [ht]
  cases acceptCommand_effect ht with
  | unchanged => rfl
  | started spelled => exact absurd ((decode_iff_eq_encode (i := .init) rfl w).2 spelled) hw
  | appended _ _ _ noError => exact absurd noError he
  | finalized _ noError => exact absurd noError he
  | raised _ noError => exact absurd noError he

theorem runCommands_of_err {ws : List Word64} {s : State} (he : s.err ≠ .noError)
    (hws : ∀ w ∈ ws, decode w ≠ .command .init) : runCommands ws s = .next s := by
  induction ws with
  | nil => rfl
  | cons w ws ih =>
    obtain ⟨hw, hws⟩ := List.forall_mem_cons.1 hws
    rw [runCommands_cons (acceptCommand_of_err he hw)]
    exact ih hws

/-- A latched error invalidates the digest (R29). -/
theorem dvalid_of_err {s : State} (he : s.err ≠ .noError) : dvalid s = false := by
  simp [dvalid, he]

/-- Settles O20: other words are discarded one by one, and INIT's word is its encoding. -/
theorem errorPoisonsUntilInit : Obligations.ErrorPoisonsUntilInit :=
  fun s he => ⟨fun _ hw => acceptCommand_of_err he hw, fun _ hws => ⟨runCommands_of_err he hws, dvalid_of_err he⟩,
    acceptCommand_encode (i := .init) rfl s⟩

end Sys2Proof.Machine
end

section
/-! PROOFS. One step by its case (R160, R164): a ready core runs the word on its port, a core in reset waits for the host, and
reset and INIT leave the same in every register a rule reads (R161). -/

namespace Sys2Proof.Machine

section StepByCase
variable {s : State}

/-- A ready core accepts the word on its port (R164). -/
theorem step_of_ready (hv : s.cmdValid = true) (hr : s.resetAsserted = false) :
    step s = acceptCommand s.cmdWord (takeWord s) := by
  simp [step, accepts, cmdReady, hv, hr]

/-- A core with an empty port waits for the host. -/
theorem step_of_noWord (hv : s.cmdValid = false) : step s = .next (waitForHost s) := by
  simp [step, accepts, hv]

/-- A core in reset waits for the host, whatever is on its port (R160). -/
theorem step_of_reset (hr : s.resetAsserted = true) : step s = .next (waitForHost s) := by
  simp [step, accepts, cmdReady, hr]

theorem waitForHost_of_cons {e : HostEvent} {rest : List HostEvent} (hi : s.inputs = e :: rest) :
    waitForHost s = hostEvent e { s with inputs := rest } := by
  simp only [waitForHost, hi]

theorem hostEvent_releaseReset (hr : s.resetAsserted = true) : hostEvent .releaseReset s = resetRegisters s :=
  if_pos hr

end StepByCase

/-- Settles O23. -/
theorem stepRunsTheDecodedCommand : Obligations.StepRunsTheDecodedCommand := by
  intro s i hv hr hd
  rw [step_of_ready hv hr, acceptCommand_of_decode hd]
  rfl

/-- Settles O27: without `cmd_ready` no word is accepted and no output is defined. -/
theorem nothingAcceptedInReset : Obligations.NothingAcceptedInReset := by
  intro s hr
  have notReady : cmdReady s = false := by simp [cmdReady, hr]
  exact ⟨step_of_reset hr, by simp [statusOut, notReady], by simp [errCmdOut, notReady], by simp [digestOut, notReady]⟩

/-- Settles O28. -/
theorem withdrawnWordHasNoEffect : Obligations.WithdrawnWordHasNoEffect := by
  intro s rest hr _ hi
  rw [step_of_reset hr, waitForHost_of_cons hi]
  rfl

/-- The release of reset and INIT load the same registers (R160, R161, R113); with `BUFLEN` 0 every cell of `BUF` is
stale. -/
theorem resetRegisters_agreeRead_startMessage (s : State) :
    (resetRegisters s).AgreeRead (startMessage { s with resetAsserted := false }) :=
  ⟨rfl, rfl, fun j hj => absurd hj (Nat.not_lt_zero j), rfl, rfl, rfl, rfl, rfl, rfl, rfl, rfl⟩

/-- Settles O45. -/
theorem resetAndInitAgree : Obligations.ResetAndInitAgree := by
  refine ⟨rfl, fun s rest hr hi => ⟨_, _, ?_, exec_init _, resetRegisters_agreeRead_startMessage { s with inputs := rest }⟩⟩
  rw [step_of_reset hr, waitForHost_of_cons hi]
  exact congrArg _ (hostEvent_releaseReset hr)

end Sys2Proof.Machine
end

section
/-! PROOFS. The run of an idle core (R52, R170): two steps present and execute one word. -/

namespace Sys2Proof.Machine

theorem run_of_step {s t : State} (h : step s = .next t) (k : Nat) :
    Host.Core.run core (k + 1) s = Host.Core.run core k t := by
  simp only [Host.Core.run, show Host.Core.step core s = .next t from h]

/-- What is on the `cmd_word` pins and what the host does later play no part in a command. -/
theorem acceptCommand_withHost {c : Word64} {s t : State} (h : acceptCommand c s = .next t) (w : Word64)
    (ins : List HostEvent) :
    acceptCommand c { s with cmdWord := w, inputs := ins } = .next { t with cmdWord := w, inputs := ins } := by
  obtain ⟨hv, -, hr, -⟩ := acceptCommand_port c s t h
  rw [hv, hr]
  exact acceptCommand_withPort c s t s.cmdValid w s.resetAsserted ins h

theorem runCommands_withHost {ws : List Word64} {s t : State} (h : runCommands ws s = .next t) (w : Word64)
    (ins : List HostEvent) :
    runCommands ws { s with cmdWord := w, inputs := ins } = .next { t with cmdWord := w, inputs := ins } := by
  induction ws generalizing s with
  | nil => cases h; rfl
  | cons c ws ih =>
    obtain ⟨u, hu, -⟩ := acceptCommand_cases c s
    rw [runCommands_cons hu] at h
    rw [runCommands_cons (acceptCommand_withHost hu w ins)]
    exact ih h

/-- An idle core executes the word the host presents next, in two steps (R164). -/
theorem run_presented_word {s t : State} {w : Word64} {rest : List HostEvent} (hv : s.cmdValid = false)
    (hr : s.resetAsserted = false) (hi : s.inputs = .present w :: rest) (h : acceptCommand w s = .next t) (k : Nat) :
    Host.Core.run core (k + 2) s = Host.Core.run core k { t with cmdWord := w, inputs := rest } := by
  have presented : step s = .next { s with cmdValid := true, cmdWord := w, inputs := rest } := by
    rw [step_of_noWord hv, waitForHost_of_cons hi]
    rfl
  have executed : step { s with cmdValid := true, cmdWord := w, inputs := rest } =
      .next { t with cmdWord := w, inputs := rest } := by
    rw [← acceptCommand_withHost h w rest, hv]
    exact step_of_ready (s := { s with cmdValid := true, cmdWord := w, inputs := rest }) rfl hr
  rw [run_of_step presented, run_of_step executed]

/-- Two steps a word later the idle core is where the words lead (R170), but for `cmd_word` and the host's actions. -/
theorem run_presented (ws : List Word64) {s t : State} (hv : s.cmdValid = false) (hr : s.resetAsserted = false)
    (hi : s.inputs = ws.map .present) (h : runCommands ws s = .next t) :
    ∃ c, Host.Core.run core (2 * ws.length) s = .next { t with cmdWord := c, inputs := [] } := by
  induction ws generalizing s t with
  | nil =>
    cases h
    have noMore : s.inputs = [] := hi
    exact ⟨s.cmdWord, by rw [← noMore]; rfl⟩
  | cons w ws ih =>
    obtain ⟨u, hu, -⟩ := acceptCommand_cases w s
    obtain ⟨huv, -, hur, -⟩ := acceptCommand_port w s u hu
    rw [runCommands_cons hu] at h
    obtain ⟨c, hc⟩ := ih (s := { u with cmdWord := w, inputs := ws.map .present }) (huv.trans hv) (hur.trans hr) rfl
      (runCommands_withHost h w (ws.map .present))
    exact ⟨c, (run_presented_word hv hr hi hu (2 * ws.length)).trans hc⟩

/-- Settles O29. -/
theorem runIsTheSequenceOfWords : Obligations.RunIsTheSequenceOfWords := by
  intro ws s hv hr hi
  obtain ⟨t, ht⟩ := runCommands_next ws s
  obtain ⟨c, hc⟩ := run_presented ws hv hr hi ht
  exact ⟨t, _, ht, hc, rfl⟩

end Sys2Proof.Machine
end

section
/-! PROOFS. The clocked core while it is busy or in reset (R160, R164 to R168): an edge without reset only counts the busy
interval down, and an edge with reset abandons the command. -/

namespace Sys2Proof.Machine

/-- An edge without reset takes one cycle off a busy core and does nothing else, whatever is presented (R165, R167). -/
theorem clockEdge_of_busy {e : Edge} {c : Clocked} (he : e.reset = false) (hr : c.inReset = false) (hb : c.busy ≠ 0) :
    clockEdge e c = .next { c with busy := c.busy - 1 } := by
  simp [clockEdge, he, hr, hb]

/-- Fewer edges than the core is busy for only count them off. -/
theorem runEdges_of_busy (es : List Edge) {c : Clocked} (hes : ∀ e ∈ es, e.reset = false) (hr : c.inReset = false)
    (hb : es.length < c.busy) : runEdges es c = .next { c with busy := c.busy - es.length } := by
  induction es generalizing c with
  | nil => rfl
  | cons e es ih =>
    obtain ⟨he, hes⟩ := List.forall_mem_cons.1 hes
    rw [List.length_cons] at hb
    have hrest : es.length < c.busy - 1 := by omega
    simp only [runEdges, clockEdge_of_busy he hr (Nat.ne_zero_of_lt hb)]
    rw [ih (c := { c with busy := c.busy - 1 }) hes hr hrest, Nat.sub_sub, Nat.add_comm 1, List.length_cons]

/-- An accepted word makes the core busy for at least the time of R165, out of reset. -/
theorem acceptAtEdge_busy {w : Word64} {c d : Clocked} (h : acceptAtEdge w c = .next d) :
    d.inReset = false ∧ busyAtLeast w c.core ≤ d.busy := by
  obtain ⟨t, ht, -⟩ := acceptCommand_cases w c.core
  simp only [acceptAtEdge, ht] at h
  cases h
  exact ⟨rfl, Nat.le_add_right _ _⟩

theorem ready_of_busy {c : Clocked} (hb : c.busy ≠ 0) : c.ready = false := by
  simp [Clocked.ready, hb]

/-- Outputs are defined only while the core is ready (R166). -/
theorem outputs_of_not_ready {c : Clocked} (h : c.ready = false) :
    c.statusOut = none ∧ c.errCmdOut = none ∧ c.digestOut = none := by
  simp [Clocked.statusOut, Clocked.errCmdOut, Clocked.digestOut, h]

/-- Settles O56: the edges do not use up the cycles of R165, so the core is still busy. -/
theorem busyCoreAcceptsNothing : Obligations.BusyCoreAcceptsNothing := by
  intro w c d es h hes hlen
  obtain ⟨hr, hbusy⟩ := acceptAtEdge_busy h
  have hlt : es.length < d.busy := Nat.lt_of_lt_of_le hlen hbusy
  have notReady : Clocked.ready { d with busy := d.busy - es.length } = false :=
    ready_of_busy (Nat.sub_ne_zero_of_lt hlt)
  exact ⟨_, runEdges_of_busy es hes hr hlt, rfl, rfl, notReady, outputs_of_not_ready notReady⟩

/-- Settles O57: such an edge is `holdReset`, whatever the core was doing. -/
theorem resetAbandonsACommand : Obligations.ResetAbandonsACommand := by
  intro e c he
  have notReady : (holdReset c).ready = false := by simp [Clocked.ready, holdReset]
  exact ⟨holdReset c, if_pos he, notReady, rfl, rfl, rfl, rfl, rfl, rfl, rfl⟩

end Sys2Proof.Machine
end
